-- ==== Sys2Proof/Word.lean ====
section
/-! DEFINITION. Word.lean: the word types of the block (spec/00_scope.md R7, spec/30_encoding.md R90). -/

namespace Sys2Proof

/-- A byte, bit 7 the most significant (R7); the width DW of an entry and of a transmitted unit (R5). -/
abbrev Byte := BitVec 8

/-- An operation word, exactly 12 bits `op[11:0]` (R90). -/
abbrev OpWord := BitVec 12

/-- The ports an operation word can name (R90, R12). -/
inductive Port
  | sys  -- RESET and NOP
  | wr   -- the producer's port
  | rd   -- the consumer's port
  | tx   -- the transmitter's port
  deriving DecidableEq, Repr, Inhabited

end Sys2Proof
end

