-- ==== Sys2Proof/Syntax.lean ====
section
/-! DEFINITION. Syntax.lean: the six operations of the block (spec/30_encoding.md R91), in the order of
spec/opcode_table.json. -/

namespace Sys2Proof

/-- The operations. Only STORE and SEND have an operand, an unsigned byte used as it stands (R93). -/
inductive Instr
  | nop                -- NOP, R141
  | reset              -- RESET, R142
  | store (b : Byte)   -- STORE b, R111 to R113
  | avail              -- AVAIL, R114
  | take               -- TAKE, R115 to R117
  | send (b : Byte)    -- SEND b, R131 and R132
  deriving DecidableEq, Repr, Inhabited

end Sys2Proof
end

