-- ==== Sys2Proof/Decode.lean ====
section
/-! DEFINITION. Decode.lean: the opcode map, the decoder and the encoder of spec/30_encoding.md (R90 to R97). -/

namespace Sys2Proof

/-- Why a word is refused: it is reserved (R95). -/
inductive DecodeError
  | illegalOp (word : OpWord)
  deriving DecidableEq, Repr, Inhabited

/-- One row of the opcode map (R94): a word selects the row whose mask and pattern it matches. -/
structure Row where
  mnemonic : String
  mask     : OpWord
  pattern  : OpWord
  build    : Byte → Instr

/-- The opcode map, complete (R94). -/
def opcodeRows : List Row :=
  [ { mnemonic := "NOP",   mask := 0xFFF, pattern := 0x000, build := fun _ => .nop },
    { mnemonic := "RESET", mask := 0xFFF, pattern := 0x100, build := fun _ => .reset },
    { mnemonic := "STORE", mask := 0xF00, pattern := 0x400, build := .store },
    { mnemonic := "AVAIL", mask := 0xFFF, pattern := 0x800, build := fun _ => .avail },
    { mnemonic := "TAKE",  mask := 0xFFF, pattern := 0x900, build := fun _ => .take },
    { mnemonic := "SEND",  mask := 0xF00, pattern := 0xC00, build := .send } ]

/-- `(w AND mask) == match` (R94). -/
def rowSelects (r : Row) (w : OpWord) : Bool := w &&& r.mask == r.pattern

/-- `op[7:0]`, the data byte (R90, R93). -/
def dataField (w : OpWord) : Byte := w.extractLsb' 0 8

/-- `op[11:10]`, the port number (R90). -/
def portField (w : OpWord) : BitVec 2 := w.extractLsb' 10 2

/-- `op[9:8]`, the operation within the port (R90). -/
def functField (w : OpWord) : BitVec 2 := w.extractLsb' 8 2

/-- The decoder, total on 12-bit words: one of the six operations, or ILLEGAL_OP (R95). -/
def decode (w : OpWord) : Except DecodeError Instr :=
  match opcodeRows.find? (rowSelects · w) with
  | some r => .ok (r.build (dataField w))
  | none   => .error (.illegalOp w)

/-- The number of a port in `op[11:10]` (R90). -/
def portCode : Port → BitVec 2
  | .sys => 0
  | .wr  => 1
  | .rd  => 2
  | .tx  => 3

/-- The port an operation is issued on (R91). -/
def instrPort : Instr → Port
  | .nop     => .sys
  | .reset   => .sys
  | .store _ => .wr
  | .avail   => .rd
  | .take    => .rd
  | .send _  => .tx

/-- The operation's number within its port (R94). -/
def instrFunct : Instr → BitVec 2
  | .nop     => 0
  | .reset   => 1
  | .store _ => 0
  | .avail   => 0
  | .take    => 1
  | .send _  => 0

/-- The data field: the operand in format D, zero in format Z (R92). -/
def instrData : Instr → Byte
  | .nop     => 0
  | .reset   => 0
  | .store b => b
  | .avail   => 0
  | .take    => 0
  | .send b  => b

/-- The encoder: `port`, `funct`, `data` laid side by side, `port` on top (R90). -/
def encode (i : Instr) : OpWord := portCode (instrPort i) ++ instrFunct i ++ instrData i

/-- A word is reserved when it matches no row (R95). -/
def reserved (w : OpWord) : Bool := opcodeRows.all fun r => !rowSelects r w

/-- What the decoder reads from an operation whose bits are `w`, bit 0 the least significant, the bits from `nbits` on
being 0. An operation word has exactly 12 bits (R90, R97), so a number with a bit above bit 11 is no word (log 11). -/
def decodeTableWord (nbits w : Nat) : Option Instr :=
  if w % 2 ^ nbits < 2 ^ 12 then
    match decode (BitVec.ofNat 12 (w % 2 ^ nbits)) with
    | .ok i    => some i
    | .error _ => none
  else none

end Sys2Proof
end

