-- ==== Sys2Proof/Machine/Types.lean ====
section
/-! DEFINITION. Machine/Types.lean: the data the state is made of: agents, sequencer phases, causes, results, the
software calls and the schedule's items. -/

namespace Sys2Proof.Machine

/-- The agents that take steps (spec/00_scope.md R10). -/
inductive Agent
  | producer      -- P, the interrupt context
  | consumer      -- C, the normal context on RD
  | transmitter   -- T, the normal context on TX
  | environment   -- E, the platform: receive interrupts and the ready flag
  | synchroniser  -- X, only with XD_LAG = 1
  | host          -- H, construction and init
  deriving DecidableEq, Repr, Inhabited

/-- The producer's sequencer `p_phase` (spec/10_state.md R28). -/
inductive PPhase
  | idle              -- P_IDLE: no STORE in progress
  | write (b : Byte)  -- P_WRITE(b): STORE.2 is next
  | publish           -- P_PUBLISH: STORE.3 is next
  deriving DecidableEq, Repr, Inhabited

/-- The consumer's sequencer `c_phase` (R29). -/
inductive CPhase
  | idle            -- C_IDLE: no TAKE in progress
  | adv (v : Byte)  -- C_ADV(v): TAKE.2 is next and returns v
  deriving DecidableEq, Repr, Inhabited

/-- The transmit sequencer `tx_phase` (R30). -/
inductive TxPhase
  | idle             -- TX_IDLE: no SEND in progress
  | wait (b : Byte)  -- TX_WAIT(b): the caller is held, SEND.2 polls
  deriving DecidableEq, Repr, Inhabited

/-- The fault causes, with what they record (spec/60_exceptions.md R182, R183). -/
inductive FaultCause
  | takeEmpty (head tail : Nat)  -- code 1, TAKE on an empty buffer
  deriving DecidableEq, Repr, Inhabited

/-- The refusal causes, with what they record (R182). -/
inductive RefusalCause
  | illegalOp (word : OpWord)                             -- code 2, a reserved word
  | portBusy (port : Port)                                -- code 3, the port's sequencer is not idle
  | resetBusy (p : PPhase) (c : CPhase) (t : TxPhase)     -- code 4, RESET with a sequencer not idle
  | notInited (op : Instr)                                -- code 5, STORE or SEND before init
  | reinit                                                -- code 6, a second init
  | lineTooLong (maxLen : Nat)                            -- code 7, RDLINE's line does not fit
  deriving DecidableEq, Repr, Inhabited

/-- One result returned on the RD port (spec/00_scope.md R12, R13). -/
inductive RdResult
  | avail (bit : Bool)  -- `rd_avail`, AVAIL's bit
  | byte (v : Byte)     -- `rd_data`, TAKE's byte
  deriving DecidableEq, Repr, Inhabited

/-- The status a read call returns; the spec gives the names no numbers (spec/43_pseudo_ops.md R150). -/
inductive Status
  | success
  | timedOut
  deriving DecidableEq, Repr, Inhabited

/-- The value WRFLT formats: `num / den`, negative if `neg`. The spec gives no floating-point format (R161); log 18. -/
structure Decimal where
  neg : Bool
  num : Nat
  den : Nat
  deriving DecidableEq, Repr, Inhabited

/-- What `write`, `print` and `println` take (R155 to R158). -/
inductive Printable
  | text (s : List Byte)
  | int (i : Int)
  | bool (v : Bool)
  deriving DecidableEq, Repr, Inhabited

/-- The software calls that drive the ports, the pseudo-operations of spec/43_pseudo_ops.md (R100, R101). -/
inductive Call
  | rdByte (timeout : Nat)                         -- RDBYTE, R151
  | rdLine (maxLen timeout : Nat)                  -- RDLINE, R153
  | rdVal (timeout : Nat)                          -- RDVAL, R160
  | rdFlt (timeout : Nat)                          -- RDFLT, R160
  | write (x : Printable)                          -- WRSTR, WRINT, WRBOOL, R155 to R157
  | writeFloat (x : Decimal) (places : Nat)        -- WRFLT, R161
  | print (x : Printable)                          -- PRINT, R158
  | println (x : Printable)                        -- PRINTLN, R158
  | printlnFloat (x : Decimal) (places : Nat)      -- println(float, places), R158
  | printBinary (width value : Nat)                -- PRBIN of one value, R159
  | printBinarySeq (bytes : List Byte)             -- PRBIN of a byte sequence, R159
  deriving DecidableEq, Repr, Inhabited

/-- What a line is read for (R153, R160). -/
inductive LineUse
  | line
  | value
  | float
  deriving DecidableEq, Repr, Inhabited

/-- A line being read: R165's accumulated count is `buffer.length` and its decode target is `use`. -/
structure LineJob where
  maxLen : Nat
  use    : LineUse
  buffer : List Byte
  deriving DecidableEq, Repr, Inhabited

/-- A byte being read, with R165's deadline counter `budget`; `line` is none for a bare RDBYTE. -/
structure ReadJob where
  timeout : Nat
  budget  : Nat
  line    : Option LineJob
  deriving DecidableEq, Repr, Inhabited

/-- Which operation of RDBYTE's loop comes next (R151). -/
inductive ReadPhase
  | poll     -- AVAIL, or giving up
  | take     -- TAKE.1
  | advance  -- TAKE.2
  deriving DecidableEq, Repr, Inhabited

/-- The software call in progress (R165: state of the surrounding software, not of the block). -/
inductive Soft
  | idle
  | read (job : ReadJob) (phase : ReadPhase)
  | write (rest : List Byte) (sent : Bool)   -- `sent`: SEND.1 of the first byte is done, SEND.2 polls
  deriving DecidableEq, Repr, Inhabited

/-- What a software call returned. With `timedOut` no byte, line or value is given (R151, U11). -/
inductive SoftResult
  | byte (st : Status) (v : Option Byte)
  | line (st : Status) (buffer : List Byte)
  | value (st : Status) (v : Option Int)
  | float (st : Status) (v : Option Nat)
  | written
  deriving DecidableEq, Repr, Inhabited

/-- The schedule's items (spec/30_encoding.md R99), the receive interrupt (R187), `init` (R214), the start of a
software call and one turn of the software (R150). -/
inductive Item
  | word (w : OpWord)    -- a bare operation: all its micro-steps with nothing between (R9)
  | interrupt (b : Byte) -- E: the receive interrupt delivers b, and P issues STORE b
  | store1 (b : Byte)    -- STORE.1 b
  | store2               -- STORE.2
  | store3               -- STORE.3
  | take1                -- TAKE.1
  | take2                -- TAKE.2
  | send1 (b : Byte)     -- SEND.1 b
  | send2                -- SEND.2, one poll
  | syncH                -- SYNC.H
  | syncT                -- SYNC.T
  | init                 -- init(baud_rate), the rate of the block's parameters
  | call (c : Call)      -- the application calls the software
  | soft                 -- the software takes its next micro-step
  deriving DecidableEq, Repr, Inhabited

end Sys2Proof.Machine
end

