-- ==== Sys2Proof/Config.lean ====
section
/-! DEFINITION. Config.lean: what an implementation fixes (spec/00_scope.md R5), and the free values of the model. -/

namespace Sys2Proof

/-- The build-time parameters of the block (R5). A state carries them in its field `cfg`, which no step changes (log 7). -/
structure Config where
  /-- `N`, the number of entries of `storage`; R5 asks for `N >= 2` -/
  n : Nat := 64
  /-- `XD_LAG`: true where each context sees a lagging copy of the other's cursor -/
  xdLag : Bool := false
  /-- `ATOMIC_ISR`: true where no step of the normal context falls inside a STORE -/
  atomicIsr : Bool := false
  /-- `IPM`, polling iterations per millisecond of RDBYTE -/
  ipm : Nat := 26
  /-- `SCRATCH`, the size of the line buffer of RDVAL and RDFLT -/
  scratch : Nat := 20
  /-- `baud_rate`, what `init` hands to `configure`; no default in the source and read by no rule of the block (log 20) -/
  baudRate : Nat := 0
  /-- `INSTANCES`, the peripheral identities, one block each; not in the source (log 7) -/
  instances : List Nat := [0]
  /-- which of them this block is, "an integer identifier" (spec/60_exceptions.md R200); it keys the free values (log 23) -/
  ident : Nat := 0
  deriving DecidableEq, Repr, Inhabited

/-- The defaults of R5: N = 64, XD_LAG = 0, ATOMIC_ISR = 0, IPM = 26, SCRATCH = 20; for `baud_rate` and INSTANCES, which R5
leaves open, the model's (log 7). -/
def Config.default : Config := {}

/-- The usable capacity `N - 1`: one slot is the full/empty discriminator (R5, spec/10_state.md R25). -/
def Config.usable (c : Config) : Nat := c.n - 1

/-- Parity and flow control settings of the attached controller; the fixed format uses none (R199). -/
inductive Setting
  | absent
  | present
  deriving DecidableEq, Repr

/-- The line format of the attached serial controller (R5, spec/60_exceptions.md R199). -/
structure LineFormat where
  dataBits         : Nat
  stopBits         : Nat
  parity           : Setting
  flowControl      : Setting
  receiveEnabled   : Bool
  transmitEnabled  : Bool
  receiveInterrupt : Bool
  deriving DecidableEq, Repr

/-- "fixed constants of this driver, not configurable inputs" (R5, R199): no operation reads them. -/
def lineFormat : LineFormat :=
  { dataBits := 8, stopBits := 1, parity := .absent, flowControl := .absent,
    receiveEnabled := true, transmitEnabled := true, receiveInterrupt := true }

/-- FREE VALUE (log 3): the item the free schedule of the block `ident` picks on its `k`-th turn (R11, R187). -/
opaque Config.choice (ident k : Nat) : Machine.Item

/-- FREE VALUE (log 4): `pc_ready` of the block `ident` at its `k`-th poll no value was laid down for (R132, S3). -/
opaque Config.pcReady (ident k : Nat) : Bool

/-- FREE VALUE (log 17): the number the parser gives for text that is no decimal integer, a draw (R160, U3): the block
`ident` and the count `k` of its calls that have returned make it a fresh one for each call. -/
opaque Config.parseFallback (ident k : Nat) (text : List Byte) : Int

/-- FREE VALUE (log 17): the float read from a text, as a number whose format the spec does not give (R160); keyed alike. -/
opaque Config.parseFloat (ident k : Nat) (text : List Byte) : Nat

end Sys2Proof
end

