-- ==== Sys2Proof/Machine/State.lean ====
section
/-! DEFINITION. Machine/State.lean: the state of one block (spec/10_state.md R20), plain data, and its value after
the power-on RESET (R38). -/

namespace Sys2Proof.Machine

/-- `storage`: (index, byte) pairs, indices strictly rising. An unlisted index is an entry that holds no value (R21). -/
abbrev Memory := List Host.Cell

/-- The stops of the model. A TAKE on an empty buffer is not one of them: the spec says what it records (R116, log 1). -/
inductive Fault
  /-- Raised by STORE.2 and TAKE.1 when the cursor is outside `[0, N)`: no such entry exists (R50). Safe: no state a run
  reaches has such a cursor (log 8). -/
  | noSuchEntry (index : Nat)
  /-- Raised by TAKE.1 when the entry at `tail` holds no value (R21). Safe: no state a run reaches has such an entry
  between `tail` and `head` (log 8). -/
  | unwrittenEntry (index : Nat)
  deriving DecidableEq, Repr

/-- Requests without a meaning. The refusals of R182 are not among them: the spec says what they record (R181, log 1). -/
inductive Refusal
  /-- Raised by a dispatch arm whose instruction has no meaning yet. Safe. No arm of this model raises it. -/
  | notModelled (mnemonic : String)
  deriving DecidableEq, Repr

/-- The state of one block (R20), the model's own fields after it. -/
structure State where
  /-- the build-time parameters (R5), changed by no step (log 7) -/
  cfg : Config
  /-- `storage` (R21) -/
  storage : Memory
  /-- `head`, the next write index, in `[0, N)` (R22) -/
  head : Nat
  /-- `tail`, the next read index, in `[0, N)` (R23) -/
  tail : Nat
  /-- `p_phase` (R28) -/
  pPhase : PPhase
  /-- `c_phase` (R29) -/
  cPhase : CPhase
  /-- `tx_phase` (R30) -/
  txPhase : TxPhase
  /-- `head_rd`, the copy of `head` that C sees; of use with XD_LAG = 1 only (R70, log 14) -/
  headRd : Nat
  /-- `tail_wr`, the copy of `tail` that P sees; of use with XD_LAG = 1 only (R70, log 14) -/
  tailWr : Nat
  /-- ghost `tx_log`: the bytes handed over on PC, in order (R33) -/
  txLog : List Byte
  /-- ghost `drops`: how many STOREs were discarded (R33) -/
  drops : Nat
  /-- ghost `fault`: the first fault cause, sticky (R33) -/
  fault : Option FaultCause
  /-- ghost `refused`: the first refusal cause, sticky (R33) -/
  refused : Option RefusalCause
  /-- ghost `inited`: whether the one `init` has happened (R33) -/
  inited : Bool
  /-- the model's own: what RD returned, in order (R13, log 6) -/
  rdLog : List RdResult
  /-- the model's own: `pc_ready` values laid down for the coming polls (R11, log 4) -/
  polls : List Bool
  /-- the model's own: how many polls took a free value (log 4) -/
  drawn : Nat
  /-- the model's own: a bare SEND polls on, and nothing falls inside it (R9, log 5) -/
  bareSend : Bool
  /-- the model's own: the schedule not yet run (R11, R99, log 2) -/
  sched : List Item
  /-- the model's own: how many turns the free schedule took (log 3) -/
  turns : Nat
  /-- the model's own: the software call in progress (R165, log 15) -/
  soft : Soft
  /-- the model's own: what the software calls returned (log 15) -/
  softLog : List SoftResult
  deriving DecidableEq, Repr

/-- The outcome of a step of this machine. -/
abbrev Out := Host.Outcome State Fault Refusal

/-- The state right after the power-on RESET, for given parameters (R38, R210, R211). -/
def State.powerOn (cfg : Config) : State where
  cfg := cfg
  storage := []
  head := 0
  tail := 0
  pPhase := .idle
  cPhase := .idle
  txPhase := .idle
  headRd := 0
  tailWr := 0
  txLog := []
  drops := 0
  fault := none
  refused := none
  inited := false
  rdLog := []
  polls := []
  drawn := 0
  bareSend := false
  sched := []
  turns := 0
  soft := .idle
  softLog := []

/-- The machine right after reset, with the default parameters of R5. -/
def State.reset : State := State.powerOn Config.default

end Sys2Proof.Machine
end

