-- ==== Sys2Proof/Machine/Ops.lean ====
section
/-! DEFINITION. Machine/Ops.lean: the named operations over cursors, storage, ghosts and outputs, and the two shared
operations that record a fault or a refusal. -/

namespace Sys2Proof.Machine

/-- Goes on with the next state; a stop stays a stop. -/
def andThen (o : Out) (f : State → Out) : Out :=
  match o with
  | .next s    => f s
  | .fault r   => .fault r
  | .refused r => .refused r

/-! Cursor arithmetic (spec/20_memory.md R58, R59). -/

/-- `inc(c) = (c + 1) mod N` (R58). -/
def inc (n c : Nat) : Nat := (c + 1) % n

/-- `dist(a, b) = (N + b - a) mod N`, the forward cyclic distance (R59). -/
def dist (n a b : Nat) : Nat := (n + b - a) % n

/-! Storage (spec/20_memory.md R50 to R52). -/

/-- The entry at an index, `none` where it holds no value. -/
def Memory.read : Memory → Nat → Option Byte
  | [], _ => none
  | (j, v) :: rest, i => if j = i then some v else Memory.read rest i

/-- The entry at an index takes a byte; the indices stay strictly rising. -/
def Memory.write : Memory → Nat → Byte → Memory
  | [], i, v => [(i, v)]
  | (j, w) :: rest, i, v =>
    if i < j then (i, v) :: (j, w) :: rest
    else if i = j then (i, v) :: rest
    else (j, w) :: Memory.write rest i v

/-- All indices of a list of cells lie above a bound and rise strictly. -/
def Memory.risingFrom : Nat → Memory → Bool
  | _, [] => true
  | k, (i, _) :: rest => decide (k ≤ i) && Memory.risingFrom (i + 1) rest

/-- The canonical form: indices strictly rising. An unlisted entry holds no value, so no listed byte is redundant. -/
def Memory.wf (m : Memory) : Bool := Memory.risingFrom 0 m

/-- `MemWrite(i, 1, v)` (R8): an index outside `[0, N)` names no entry. -/
def storeEntry (i : Nat) (v : Byte) (s : State) : Out :=
  if i < s.cfg.n then .next { s with storage := s.storage.write i v } else .fault (.noSuchEntry i)

/-- `MemRead(i, 1)` (R8) handed on to `k`: an index outside `[0, N)` names no entry, an unwritten entry has no value. -/
def loadEntry (i : Nat) (s : State) (k : Byte → Out) : Out :=
  if i < s.cfg.n then
    match s.storage.read i with
    | some v => k v
    | none   => .fault (.unwrittenEntry i)
  else .fault (.noSuchEntry i)

/-! Recording a cause (spec/60_exceptions.md R181): nothing else changes, and the first cause stays (R33). -/

/-- `raise <fault>`: `fault <- c if fault == none` (R116). -/
def State.raiseFault (c : FaultCause) (s : State) : State :=
  { s with fault := s.fault.orElse fun _ => some c }

/-- A refusal: the request is not performed and `refused` records the first cause (R181). -/
def State.refuse (c : RefusalCause) (s : State) : State :=
  { s with refused := s.refused.orElse fun _ => some c }

/-- The code number of a fault cause (R182). -/
def faultCode : FaultCause → Nat
  | .takeEmpty _ _ => 1

/-- The code number of a refusal cause (R182). -/
def refusalCode : RefusalCause → Nat
  | .illegalOp _     => 2
  | .portBusy _      => 3
  | .resetBusy _ _ _ => 4
  | .notInited _     => 5
  | .reinit          => 6
  | .lineTooLong _   => 7

/-! Outputs and inputs. -/

/-- `return` on the RD port (R12): the result joins the observation (R13, log 6). -/
def State.returnRd (r : RdResult) (s : State) : State := { s with rdLog := s.rdLog ++ [r] }

/-- `draw r` (R132): the next value laid down for the polls, else a free value (log 4). -/
def State.drawReady (s : State) : Bool × State :=
  match s.polls with
  | r :: rest => (r, { s with polls := rest })
  | []        => (Config.pcReady s.cfg.ident s.drawn, { s with drawn := s.drawn + 1 })

end Sys2Proof.Machine
end

