-- ==== Sys2Proof/Machine/Operands.lean ====
section
/-! DEFINITION. Machine/Operands.lean: the cursors as each context sees them, and the Gray-coded view. The byte operand
of STORE and SEND needs no form: it is used as it stands (spec/30_encoding.md R93). -/

namespace Sys2Proof.Machine

/-- `head_c`, `head` as C sees it (spec/40_fifo_ops.md R110, spec/20_memory.md R71). -/
def State.headC (s : State) : Nat := if s.cfg.xdLag then s.headRd else s.head

/-- `tail_p`, `tail` as P sees it (R110, R71). -/
def State.tailP (s : State) : Nat := if s.cfg.xdLag then s.tailWr else s.tail

/-- `inc` of a cursor of this block (R58). -/
def State.succ (s : State) (c : Nat) : Nat := inc s.cfg.n c

/-- `W = ceil(log2 N)`, the width of a cursor register (spec/00_scope.md R5). -/
def cursorWidth (c : Config) : Nat := if c.n ≤ 1 then 0 else Nat.log2 (c.n - 1) + 1

/-- The Gray view is defined only when `N = 2^W` (R6, spec/20_memory.md R68). -/
def grayDefined (c : Config) : Bool := decide (2 ≤ c.n) && c.n == 2 ^ cursorWidth c

/-- `gray(c) = c XOR (c >> 1)` on W bits (spec/20_memory.md R66). -/
def gray {w : Nat} (c : BitVec w) : BitVec w := c ^^^ (c >>> 1)

/-- The bits of `bin(g)` from the top: bit `w - 1` is `g[w-1]`, and each lower bit is the one above it XOR `g[i]` (R66).
`ungrayTop g k` is bit `w - 1 - k`. -/
def ungrayTop {w : Nat} (g : BitVec w) : Nat → Bool
  | 0     => g.getLsbD (w - 1)
  | k + 1 => ungrayTop g k ^^ g.getLsbD (w - 1 - (k + 1))

/-- `bin(g)`, the inverse of `gray` (R66). -/
def ungray {w : Nat} (g : BitVec w) : BitVec w := BitVec.ofFnLE fun i => ungrayTop g (w - 1 - i)

/-- A cursor as an exported Gray-coded register of W bits (R67). -/
def State.grayOf (s : State) (c : Nat) : BitVec (cursorWidth s.cfg) := gray (BitVec.ofNat _ c)

end Sys2Proof.Machine
end

