-- ==== Sys2Proof/Machine/Flags.lean ====
section
/-! DEFINITION. Machine/Flags.lean: the status values, none of them stored (spec/10_state.md R31), and the buffer's
abstract content (R26). -/

namespace Sys2Proof.Machine

/-- `rd_avail`: `head != tail` as seen by C (R31). -/
def State.rdAvail (s : State) : Bool := s.headC != s.tail

/-- `full`: `inc(head) == tail` as seen by P (R31). -/
def State.full (s : State) : Bool := s.succ s.head == s.tailP

/-- `tx_busy`: a SEND has not returned (R31). -/
def State.txBusy (s : State) : Bool := s.txPhase != .idle

/-- `occ = dist(tail, head)`, the number of bytes held (R25). -/
def State.occ (s : State) : Nat := dist s.cfg.n s.tail s.head

/-- The index of the `k`-th entry from `tail` on (R26). -/
def State.slot (s : State) (k : Nat) : Nat := (s.tail + k) % s.cfg.n

/-- `contents`: the entries from `tail` up to `head`, oldest first (R26). -/
def State.contents (s : State) : List (Option Byte) :=
  (List.range s.occ).map fun k => s.storage.read (s.slot k)

/-- The Gray comparator for `rd_avail` (R67). -/
def State.rdAvailGray (s : State) : Bool := s.grayOf s.headC != s.grayOf s.tail

/-- The Gray comparator for `full` (R67). -/
def State.fullGray (s : State) : Bool := s.grayOf (s.succ s.head) == s.grayOf s.tailP

/-- All three sequencers are idle (RESET's guard, spec/42_system_ops.md R142). -/
def State.allIdle (s : State) : Bool := s.pPhase == .idle && s.cPhase == .idle && s.txPhase == .idle

/-- With ATOMIC_ISR = 1 the micro-steps of a STORE in progress are contiguous (spec/00_scope.md R5, R188, log 10). -/
def State.isrHolds (s : State) : Bool := s.cfg.atomicIsr && s.pPhase != .idle

end Sys2Proof.Machine
end

