-- ==== Sys2Proof/Machine/Fifo.lean ====
section
/-! DEFINITION. Machine/Fifo.lean: the micro-steps and the operations of the async_fifo (spec/40_fifo_ops.md). A
micro-step whose guard is false does nothing here; the schedule never takes one (Machine/Schedule.lean). -/

namespace Sys2Proof.Machine

/-! STORE b. -/

/-- What refuses a STORE: before init, or with P busy, tested in that order (spec/60_exceptions.md R191). -/
def storeRefusal (b : Byte) (s : State) : Option RefusalCause :=
  if !s.inited then some (.notInited (.store b))
  else if s.pPhase != .idle then some (.portBusy .wr)
  else none

/-- STORE.1 (test), R111: dropped on a full buffer, else latched. -/
def store1 (b : Byte) (s : State) : State :=
  match storeRefusal b s with
  | some c => s.refuse c
  | none =>
    if s.full then { s with drops := s.drops + 1, pPhase := .idle }
    else { s with pPhase := .write b }

/-- STORE.2 (data write), R112: `storage[head] <- b`. -/
def store2 (s : State) : Out :=
  match s.pPhase with
  | .write b => andThen (storeEntry s.head b s) fun t => .next { t with pPhase := .publish }
  | .idle    => .next s
  | .publish => .next s

/-- STORE.3 (publish), R113: `head <- inc(head)`. -/
def store3 (s : State) : Out :=
  match s.pPhase with
  | .publish => .next { s with head := s.succ s.head, pPhase := .idle }
  | .idle    => .next s
  | .write _ => .next s

/-- STORE.1 goes on to STORE.2: neither refused nor dropped. -/
def storeAccepted (b : Byte) (s : State) : Bool := (storeRefusal b s).isNone && !s.full

/-- STORE b: STORE.1, then STORE.2 and STORE.3 if not dropped, with nothing between (R99, R111 to R113). -/
def execStore (b : Byte) (s : State) : Out :=
  if storeAccepted b s then andThen (store2 (store1 b s)) store3 else .next (store1 b s)

/-! AVAIL. -/

/-- AVAIL, R114: returns `head_c != tail`; refused while a TAKE is in progress (R182). -/
def execAvail (s : State) : Out :=
  if s.cPhase != .idle then .next (s.refuse (.portBusy .rd))
  else .next (s.returnRd (.avail s.rdAvail))

/-! TAKE. -/

/-- TAKE.1 (data read), R115; on an empty buffer the fault TAKE_EMPTY in its place, before any read (R116, R183). -/
def take1 (s : State) : Out :=
  if s.cPhase != .idle then .next (s.refuse (.portBusy .rd))
  else if !s.rdAvail then .next (s.raiseFault (.takeEmpty s.head s.tail))
  else loadEntry s.tail s fun v => .next { s with cPhase := .adv v }

/-- TAKE.2 (advance), R117: `tail <- inc(tail)`, and the byte is returned. -/
def take2 (s : State) : Out :=
  match s.cPhase with
  | .adv v => .next ({ s with tail := s.succ s.tail, cPhase := .idle }.returnRd (.byte v))
  | .idle  => .next s

/-- TAKE.1 goes on to TAKE.2: neither refused nor faulted. -/
def takeAccepted (s : State) : Bool := s.cPhase == .idle && s.rdAvail

/-- TAKE: TAKE.1 then TAKE.2 with nothing between (R99, R115 to R117). -/
def execTake (s : State) : Out :=
  if takeAccepted s then andThen (take1 s) take2 else take1 s

end Sys2Proof.Machine
end

