-- ==== Sys2Proof/Machine/System.lean ====
section
/-! DEFINITION. Machine/System.lean: NOP, RESET and the host's duty `init` (spec/42_system_ops.md). -/

namespace Sys2Proof.Machine

/-- NOP, R141: nothing, for any agent. -/
def execNop (s : State) : Out := .next s

/-- RESET's writes, R142: the cursors and, with XD_LAG = 1, their copies (R75); storage and the ghosts are left. -/
def resetCursors (s : State) : State :=
  { s with
    head := 0, tail := 0
    headRd := if s.cfg.xdLag then 0 else s.headRd
    tailWr := if s.cfg.xdLag then 0 else s.tailWr
    pPhase := .idle, cPhase := .idle, txPhase := .idle }

/-- RESET, R142; with a sequencer not idle it is refused (R143). -/
def execReset (s : State) : Out :=
  if s.allIdle then .next (resetCursors s)
  else .next (s.refuse (.resetBusy s.pPhase s.cPhase s.txPhase))

/-- `init(baud_rate)`, R144 and R214: `inited <- true` and nothing else; a second one is refused. The rate is the
parameter `baudRate` (R5), handed to `configure` outside the block (Machine/Ports.lean `initCall`, log 20). -/
def initBlock (s : State) : State :=
  if s.inited then s.refuse .reinit else { s with inited := true }

end Sys2Proof.Machine
end

