-- ==== Sys2Proof/Machine/Transmit.lean ====
section
/-! DEFINITION. Machine/Transmit.lean: the micro-steps and the operation of the uart_transmit_unit
(spec/41_transmit_ops.md). -/

namespace Sys2Proof.Machine

/-- What refuses a SEND: before init, or with T busy, tested in that order (spec/60_exceptions.md R191). -/
def sendRefusal (b : Byte) (s : State) : Option RefusalCause :=
  if !s.inited then some (.notInited (.send b))
  else if s.txPhase != .idle then some (.portBusy .tx)
  else none

/-- SEND.1 (issue), R131: the byte is latched and the caller is held. -/
def send1 (b : Byte) (s : State) : State :=
  match sendRefusal b s with
  | some c => s.refuse c
  | none   => { s with txPhase := .wait b }

/-- SEND.2 (poll and hand over), R132: on a ready draw the controller accepts the byte and the caller is released, which
ends a bare SEND too (R9). -/
def send2 (s : State) : State :=
  match s.txPhase with
  | .wait b =>
    if s.drawReady.1 then { s.drawReady.2 with txLog := s.txLog ++ [b], txPhase := .idle, bareSend := false }
    else s.drawReady.2
  | .idle => s

/-- `k` polls, fewer if the byte is accepted before. -/
def pollTimes : Nat → State → State
  | 0, s => s
  | k + 1, s => pollTimes k (send2 s)

/-- The bare SEND is marked where its caller is still held. -/
def markHeld (s : State) : State := if s.txBusy then { s with bareSend := true } else s

/-- SEND b: SEND.1, then one SEND.2 for each `pc_ready` value laid down, until one is 1 (R99, R131, R132). With none of
them 1 the caller stays held and the bare SEND is marked: the steps that follow are its further polls and nothing else, with
free draws, until one is 1, or for ever (R9, R134, logs 4 and 5; `nextTurn` in Machine/Schedule.lean). -/
def execSend (b : Byte) (s : State) : Out :=
  if (sendRefusal b s).isNone then .next (markHeld (pollTimes s.polls.length (send1 b s)))
  else .next (send1 b s)

end Sys2Proof.Machine
end

