-- ==== Sys2Proof/Machine/Dispatch.lean ====
section
/-! DEFINITION. Machine/Dispatch.lean: each operation's meaning, a bare operation: all its micro-steps in order with
nothing between them (spec/00_scope.md R9, spec/30_encoding.md R91). -/

namespace Sys2Proof.Machine

def exec (i : Instr) (s : State) : Host.Outcome State Fault Refusal :=
  match i with
  | .nop => Sys2Proof.Machine.execNop s
  | .reset => Sys2Proof.Machine.execReset s
  | .store b => Sys2Proof.Machine.execStore b s
  | .avail => Sys2Proof.Machine.execAvail s
  | .take => Sys2Proof.Machine.execTake s
  | .send b => Sys2Proof.Machine.execSend b s

end Sys2Proof.Machine
end

