-- ==== Sys2Proof/Machine/Text.lean ====
section
/-! DEFINITION. Machine/Text.lean: the bytes the write calls send and the numbers the read calls parse
(spec/43_pseudo_ops.md section 2 and R160), software outside the block. Character codes are ASCII (R150, log 16). -/

namespace Sys2Proof.Machine

/-- NUL, the end of a text (R150). -/
def chNul : Byte := 0x00
/-- Line-feed (R150). -/
def chLf : Byte := 0x0A
/-- Carriage-return (R150). -/
def chCr : Byte := 0x0D
/-- The minus sign (R150). -/
def chMinus : Byte := 0x2D
/-- The decimal point (R150). -/
def chDot : Byte := 0x2E

/-- The character of a decimal digit, from `'0'` = 0x30 on (R150). -/
def digitChar (d : Nat) : Byte := BitVec.ofNat 8 (0x30 + d % 10)

/-- The decimal digits of a number, most significant first, before an accumulator. The fuel bounds their count. -/
def digitsAux : Nat → Nat → List Byte → List Byte
  | 0, _, acc => acc
  | fuel + 1, k, acc =>
    if k < 10 then digitChar k :: acc else digitsAux fuel (k / 10) (digitChar (k % 10) :: acc)

/-- Base-10 text of a natural number, `"0"` for 0. -/
def natText (k : Nat) : List Byte := digitsAux (k + 1) k []

/-- Exactly `p` digits of `k mod 10^p`, most significant first. -/
def fixedDigits : Nat → Nat → List Byte
  | 0, _ => []
  | p + 1, k => digitChar (k / 10 ^ p % 10) :: fixedDigits p k

/-- WRSTR: the bytes up to the first NUL, which is not sent (R155). -/
def textBytes (s : List Byte) : List Byte := s.takeWhile (· != chNul)

/-- WRINT: base-10 text, a minus sign before a negative number. R157 gives neither the integer width, nor the sign's
spelling, nor what becomes of the most negative value: the model takes integers of every size, so none is the most negative
one, and spells each negative number as a minus sign and the digits of its magnitude (DESIGN CHOICE, log 16). -/
def intText (i : Int) : List Byte :=
  if i < 0 then chMinus :: natText i.natAbs else natText i.natAbs

/-- WRBOOL: the letters of "true" and "false" (R156). -/
def boolText (v : Bool) : List Byte :=
  if v then [0x74, 0x72, 0x75, 0x65] else [0x66, 0x61, 0x6C, 0x73, 0x65]

/-- `write(value)` (R155 to R157). -/
def printableBytes : Printable → List Byte
  | .text s => textBytes s
  | .int i  => intText i
  | .bool v => boolText v

/-- The magnitude of WRFLT's value in units of `10^-places`: the offset `0.5 * 10^-places` is added, then the rest is
cut off (R161 step 1). -/
def roundedUnits (x : Decimal) (places : Nat) : Nat := (2 * x.num * 10 ^ places + x.den) / (2 * x.den)

/-- WRFLT: sign of the original value, integer digits, and `places` further digits after a point (R161 steps 2 to 4). R161
does not say what happens to values whose integer part exceeds the digit loop: the model emits all integer digits, however
many (DESIGN CHOICE, log 18). -/
def floatText (x : Decimal) (places : Nat) : List Byte :=
  (if x.neg && x.num != 0 then [chMinus] else [])
    ++ natText (roundedUnits x places / 10 ^ places)
    ++ (if places = 0 then [] else chDot :: fixedDigits places (roundedUnits x places % 10 ^ places))

/-- PRBIN: bits `width - 1` down to 0, each as `'0'` or `'1'` (R159). -/
def binaryText : Nat → Nat → List Byte
  | 0, _ => []
  | w + 1, x => (if x.testBit w then 0x31 else 0x30) :: binaryText w x

/-- The bytes a write call sends; none for a read call (R155 to R161). -/
def callBytes : Call → List Byte
  | .rdByte _           => []
  | .rdLine _ _         => []
  | .rdVal _            => []
  | .rdFlt _            => []
  | .write x            => printableBytes x
  | .writeFloat x p     => floatText x p
  | .print x            => printableBytes x ++ [chCr]
  | .println x          => printableBytes x ++ [chCr, chLf]
  | .printlnFloat x p   => floatText x p ++ [chCr, chLf]
  | .printBinary w x    => binaryText w x
  | .printBinarySeq bs  => bs.flatMap fun b => binaryText 8 b.toNat

/-- White space the parser skips at the start (R160 "leading whitespace allowed"; which characters: log 17). -/
def isSpace (b : Byte) : Bool := b == 0x20 || (decide (0x09#8 ≤ b) && decide (b ≤ 0x0D#8))

/-- The value of a decimal digit's character. -/
def digitValue (b : Byte) : Option Nat :=
  if 0x30#8 ≤ b ∧ b ≤ 0x39#8 then some (b.toNat - 0x30) else none

/-- The number whose digits follow those read so far; none at a character that is no digit. -/
def parseDigits : Nat → List Byte → Option Nat
  | acc, [] => some acc
  | acc, b :: rest =>
    match digitValue b with
    | some d => parseDigits (acc * 10 + d) rest
    | none   => none

/-- A natural number in at least one digit. -/
def parseNat : List Byte → Option Nat
  | []        => none
  | b :: rest => parseDigits 0 (b :: rest)

/-- A decimal integer: leading white space, an optional minus sign, digits to the end of the text. -/
def parseDecimal (text : List Byte) : Option Int :=
  match text.dropWhile isSpace with
  | []        => none
  | b :: rest =>
    if b == chMinus then (parseNat rest).map fun k => -(k : Int)
    else (parseNat (b :: rest)).map fun k => (k : Int)

/-- RDVAL's parse: a decimal integer as it reads, any other text a free value, drawn afresh for each call (R160, U3,
log 17). -/
def parseValue (ident k : Nat) (text : List Byte) : Int := (parseDecimal text).getD (Config.parseFallback ident k text)

end Sys2Proof.Machine
end

