-- ==== Sys2Proof/Machine/Software.lean ====
section
/-! DEFINITION. Machine/Software.lean: the software of the normal context (spec/43_pseudo_ops.md), outside the block
(R4) and kept in the model (log 15). One turn takes one micro-step of C or T, or ends a call (R150). -/

namespace Sys2Proof.Machine

/-- A fresh RDBYTE inside a job: the budget is `t * IPM` polls (R151); with `t = 0` it is not used. -/
def freshByte (s : State) (timeout : Nat) (line : Option LineJob) : Soft :=
  .read { timeout := timeout, budget := timeout * s.cfg.ipm, line := line } .poll

/-- The call ends and returns `r`. -/
def State.returnCall (r : SoftResult) (s : State) : State :=
  { s with soft := .idle, softLog := s.softLog ++ [r] }

/-- What a timed-out read call returns: no byte, no line, no value (R151, R153). -/
def timedOutResult : Option LineJob → SoftResult
  | none => .byte .timedOut none
  | some l =>
    match l.use with
    | .line  => .line .timedOut []
    | .value => .value .timedOut none
    | .float => .float .timedOut none

/-- What a read line returns: the buffer with its NUL, or the number read from it (R153, R160). -/
def lineResult (s : State) (use : LineUse) (buffer : List Byte) : SoftResult :=
  match use with
  | .line  => .line .success (buffer ++ [chNul])
  | .value => .value .success (some (parseValue s.cfg.ident s.softLog.length buffer))
  | .float => .float .success (some (Config.parseFloat s.cfg.ident s.softLog.length buffer))

/-- A call that can not go on ends without a result: its request was refused or faulted (logs 19 and 24). -/
def State.abandonCall (s : State) : State := { s with soft := .idle }

/-- RDLINE refuses a line its buffer cannot hold (R154); the call ends without a result (log 19). -/
def refuseLine (l : LineJob) (s : State) : State :=
  s.abandonCall.refuse (.lineTooLong l.maxLen)

/-- RDLINE takes one byte: CR ends the line, LF before the first accepted byte is skipped, any other byte is appended
while the NUL still fits (R153, R154). -/
def lineByte (timeout : Nat) (l : LineJob) (v : Byte) (s : State) : State :=
  if v = chCr then
    if l.maxLen ≤ l.buffer.length then refuseLine l s else s.returnCall (lineResult s l.use l.buffer)
  else if v = chLf ∧ l.buffer = [] then { s with soft := freshByte s timeout (some l) }
  else if l.maxLen ≤ l.buffer.length + 1 then refuseLine l s
  else { s with soft := freshByte s timeout (some { l with buffer := l.buffer ++ [v] }) }

/-- RDBYTE has a byte: a bare RDBYTE returns it, a line takes it. -/
def deliverByte (job : ReadJob) (v : Byte) (s : State) : State :=
  match job.line with
  | none   => s.returnCall (.byte .success (some v))
  | some l => lineByte job.timeout l v s

/-- A call of the write side (spec/43_pseudo_ops.md section 2). -/
def isWriteCall : Call → Bool
  | .rdByte _          => false
  | .rdLine _ _        => false
  | .rdVal _           => false
  | .rdFlt _           => false
  | .write _           => true
  | .writeFloat _ _    => true
  | .print _           => true
  | .println _         => true
  | .printlnFloat _ _  => true
  | .printBinary _ _   => true
  | .printBinarySeq _  => true

/-- The bytes still to send; with none left the call returns. -/
def sendRest (rest : List Byte) (s : State) : State :=
  match rest with
  | []     => s.returnCall .written
  | _ :: _ => { s with soft := .write rest false }

/-- A call starts: a read call with its first RDBYTE, a write call with its bytes. -/
def startCall (c : Call) (s : State) : State :=
  match c with
  | .rdByte t      => { s with soft := freshByte s t none }
  | .rdLine m t    => { s with soft := freshByte s t (some { maxLen := m, use := .line, buffer := [] }) }
  | .rdVal t       => { s with soft := freshByte s t (some { maxLen := s.cfg.scratch, use := .value, buffer := [] }) }
  | .rdFlt t       => { s with soft := freshByte s t (some { maxLen := s.cfg.scratch, use := .float, buffer := [] }) }
  | .write _           => sendRest (callBytes c) s
  | .writeFloat _ _    => sendRest (callBytes c) s
  | .print _           => sendRest (callBytes c) s
  | .println _         => sendRest (callBytes c) s
  | .printlnFloat _ _  => sendRest (callBytes c) s
  | .printBinary _ _   => sendRest (callBytes c) s
  | .printBinarySeq _  => sendRest (callBytes c) s

/-- RDBYTE's poll: with the budget spent it gives up without a further AVAIL; else one AVAIL (R151). A refused AVAIL, which
no run gets to, ends the call (log 24). -/
def pollTurn (job : ReadJob) (s : State) : Out :=
  if job.timeout ≠ 0 ∧ job.budget = 0 then .next (s.returnCall (timedOutResult job.line))
  else andThen (execAvail s) fun t =>
    if s.cPhase ≠ .idle then .next t.abandonCall
    else if s.rdAvail then .next { t with soft := .read job .take }
    else if job.timeout = 0 then .next t
    else .next { t with soft := .read { job with budget := job.budget - 1 } .poll }

/-- RDBYTE's TAKE.1. Refused or faulted, which no run gets to (R151), the call ends: it issues no further TAKE without an
AVAIL (R164, log 24). -/
def takeTurn (job : ReadJob) (s : State) : Out :=
  if takeAccepted s then andThen (take1 s) fun t => .next { t with soft := .read job .advance }
  else andThen (take1 s) fun t => .next t.abandonCall

/-- RDBYTE's TAKE.2 and what the call does with the byte. -/
def advanceTurn (job : ReadJob) (s : State) : Out :=
  match s.cPhase with
  | .adv v => andThen (take2 s) fun t => .next (deliverByte job v t)
  | .idle  => .next s

/-- A write call's SEND.1; refused, as before `init`, the call ends (R215, log 24). -/
def sendTurn (rest : List Byte) (s : State) : State :=
  match rest with
  | []     => s.returnCall .written
  | b :: _ =>
    if (sendRefusal b s).isNone then { send1 b s with soft := .write rest true } else (send1 b s).abandonCall

/-- A write call's SEND.2; accepted, the call goes on to its next byte. -/
def waitTurn (rest : List Byte) (s : State) : State :=
  if (send2 s).txPhase = .idle then sendRest rest.tail (send2 s) else send2 s

/-- One turn of the software. -/
def softTurn (s : State) : Out :=
  match s.soft with
  | .idle             => .next s
  | .read job .poll    => pollTurn job s
  | .read job .take    => takeTurn job s
  | .read job .advance => advanceTurn job s
  | .write rest false  => .next (sendTurn rest s)
  | .write rest true   => .next (waitTurn rest s)

/-- The software has a turn to take: a call is in progress and the port it needs next is in the phase it needs. -/
def softReady (s : State) : Bool :=
  match s.soft with
  | .idle             => false
  | .read _ .poll      => s.cPhase == .idle
  | .read _ .take      => s.cPhase == .idle
  | .read _ .advance   => s.cPhase != .idle
  | .write _ false     => s.txPhase == .idle
  | .write _ true      => s.txPhase != .idle

end Sys2Proof.Machine
end

