-- ==== Sys2Proof/Machine/Synchroniser.lean ====
section
/-! DEFINITION. Machine/Synchroniser.lean: the micro-steps of agent X, with XD_LAG = 1 only (spec/20_memory.md R72). -/

namespace Sys2Proof.Machine

/-- SYNC.H's guard: `head_rd != head`. -/
def syncHEnabled (s : State) : Bool := s.cfg.xdLag && s.headRd != s.head

/-- SYNC.T's guard: `tail_wr != tail`. -/
def syncTEnabled (s : State) : Bool := s.cfg.xdLag && s.tailWr != s.tail

/-- SYNC.H: `head_rd <- inc(head_rd)`. -/
def syncH (s : State) : State := if syncHEnabled s then { s with headRd := s.succ s.headRd } else s

/-- SYNC.T: `tail_wr <- inc(tail_wr)`. -/
def syncT (s : State) : State := if syncTEnabled s then { s with tailWr := s.succ s.tailWr } else s

end Sys2Proof.Machine
end

