-- ==== Sys2Proof/Machine/Schedule.lean ====
section
/-! DEFINITION. Machine/Schedule.lean: which item of the schedule runs next and what it does (spec/30_encoding.md R99,
spec/00_scope.md R10, R11). -/

namespace Sys2Proof.Machine

/-- The agent that issues an operation (R91); NOP, which any agent may take, is counted with H. -/
def instrAgent : Instr → Agent
  | .nop     => .host
  | .reset   => .host
  | .store _ => .producer
  | .avail   => .consumer
  | .take    => .consumer
  | .send _  => .transmitter

/-- Fetching a word: decode it, take its meaning; a reserved word is refused ILLEGAL_OP (R95). -/
def runWord (w : OpWord) (s : State) : Out :=
  match decode w with
  | .ok i               => exec i s
  | .error (.illegalOp v) => .next (s.refuse (.illegalOp v))

/-- An agent of the normal context (spec/60_exceptions.md R195): C, T, and the application H, whose `init` and calls run
there. -/
def normalContext : Agent → Bool
  | .producer     => false
  | .consumer     => true
  | .transmitter  => true
  | .environment  => false
  | .synchroniser => false
  | .host         => true

/-- The agent of a word; a reserved word is issued by none and counted with H. -/
def wordAgent (w : OpWord) : Agent :=
  match decode w with
  | .ok i    => instrAgent i
  | .error _ => .host

/-- The agent as which the software takes its next turn: C for AVAIL and TAKE, T for SEND (R150); with no call, C. -/
def softAgent : Soft → Agent
  | .idle      => .consumer
  | .read _ _  => .consumer
  | .write _ _ => .transmitter

/-- The agent whose step an item is (R10, R99). The application's calls come from H (R10, R101). -/
def itemAgent (s : State) : Item → Agent
  | .word w      => wordAgent w
  | .interrupt _ => .environment
  | .store1 _    => .producer
  | .store2      => .producer
  | .store3      => .producer
  | .take1       => .consumer
  | .take2       => .consumer
  | .send1 _     => .transmitter
  | .send2       => .transmitter
  | .syncH       => .synchroniser
  | .syncT       => .synchroniser
  | .init        => .host
  | .call _      => .host
  | .soft        => softAgent s.soft

/-- STORE.2's guard: `p_phase = P_WRITE(b)` (R112). -/
def store2Ready (s : State) : Bool :=
  match s.pPhase with
  | .idle    => false
  | .write _ => true
  | .publish => false

/-- The item's own guard (R110, R72, R187). A request on a busy port is no guard: it is refused (R184). A software call
starts with no operation of the normal context in progress (R150: one operation at a time; R10). -/
def guardHolds (s : State) : Item → Bool
  | .word _      => true
  | .interrupt _ => s.inited && s.pPhase == .idle
  | .store1 _    => true
  | .store2      => store2Ready s
  | .store3      => s.pPhase == .publish
  | .take1       => true
  | .take2       => s.cPhase != .idle
  | .send1 _     => true
  | .send2       => s.txPhase != .idle
  | .syncH       => syncHEnabled s
  | .syncT       => syncTEnabled s
  | .init        => true
  | .call _      => s.soft == .idle && s.cPhase == .idle && s.txPhase == .idle
  | .soft        => softReady s

/-- NOP and reserved words, which change nothing of the block (R141, R95). -/
def quietItem : Item → Bool
  | .word w =>
    match decode w with
    | .ok i    => i == .nop
    | .error _ => true
  | .interrupt _ => false
  | .store1 _    => false
  | .store2      => false
  | .store3      => false
  | .take1       => false
  | .take2       => false
  | .send1 _     => false
  | .send2       => false
  | .syncH       => false
  | .syncT       => false
  | .init        => false
  | .call _      => false
  | .soft        => false

/-- With ATOMIC_ISR = 1, what is not P's waits until the STORE in progress is complete: its micro-steps are contiguous
(R5, R188, log 10). -/
def waitsForStore (s : State) (it : Item) : Bool := s.isrHolds && itemAgent s it != .producer

/-- While a software call is in progress the normal context runs that call and nothing else, one operation at a time
(R150, R164, log 15); NOP is open to any agent at any time (R141). -/
def waitsForCall (s : State) (it : Item) : Bool :=
  s.soft != .idle && it != .soft && normalContext (itemAgent s it) && !quietItem it

/-- An item is held while its guard is false, a STORE that must be contiguous is in progress, or a software call of its
context is (R181). -/
def enabled (s : State) (it : Item) : Bool :=
  guardHolds s it && !waitsForStore s it && !waitsForCall s it

/-- What an item does. -/
def runItem (it : Item) (s : State) : Out :=
  match it with
  | .word w      => runWord w s
  | .interrupt b => .next (store1 b s)
  | .store1 b    => .next (store1 b s)
  | .store2      => store2 s
  | .store3      => store3 s
  | .take1       => take1 s
  | .take2       => take2 s
  | .send1 b     => .next (send1 b s)
  | .send2       => .next (send2 s)
  | .syncH       => .next (syncH s)
  | .syncT       => .next (syncT s)
  | .init        => .next (initBlock s)
  | .call c      => .next (startCall c s)
  | .soft        => softTurn s

/-- The first item that is not held, and the schedule without it. An agent keeps its own order, so an item behind a held
item of its agent waits too (spec/20_memory.md R61); `waiting` lists the agents with a held item (log 2). The turns of the
call in progress come before what waits for that call. -/
def pick (s : State) (waiting : List Agent) : List Item → Option (Item × List Item)
  | [] => none
  | it :: rest =>
    if (it == .soft || !waiting.contains (itemAgent s it)) && enabled s it then some (it, rest)
    else (pick s (itemAgent s it :: waiting) rest).map fun p => (p.1, it :: p.2)

/-- With no item to run, the free schedule picks one; if that one is held, nothing happens on this turn (log 3). -/
def freeTurn (s : State) : Option Item × State :=
  let t := { s with turns := s.turns + 1 }
  (if enabled t (Config.choice s.cfg.ident s.turns) then some (Config.choice s.cfg.ident s.turns) else none, t)

/-- What the next step runs, if anything, and the state it runs on: the next poll of a bare SEND that is still held, with
nothing between its micro-steps (R9, log 5); else an item of the schedule; else a turn of the free schedule. -/
def nextTurn (s : State) : Option Item × State :=
  if s.bareSend then (some .send2, s)
  else
    match pick s [] s.sched with
    | some (it, rest) => (some it, { s with sched := rest })
    | none            => freeTurn s

/-- One step of the machine. -/
def scheduleStep (s : State) : Out :=
  match nextTurn s with
  | (some it, t) => runItem it t
  | (none, t)    => .next t

/-- A word put first in the schedule. A number with a bit above bit 11 is no operation word (R90) and is not put there
(log 11). -/
def placeWord (s : State) (nbits w : Nat) : State :=
  if w % 2 ^ nbits < 2 ^ 12 then
    { s with sched := .word (BitVec.ofNat 12 (w % 2 ^ nbits)) :: s.sched }
  else s

/-- A schedule of words behind the one `init` (premise `Inited`, spec/70_reset_and_hazards.md R213, R214). -/
def placeProgram (s : State) (ws : List OpWord) : State := { s with sched := .init :: ws.map .word }

end Sys2Proof.Machine
end

