-- ==== Sys2Proof/Machine/Step.lean ====
section
/-! DEFINITION. Machine/Step.lean: one step of the machine, and how operation words come to be the next. -/

namespace Sys2Proof.Machine

/-- One step: a poll of a bare SEND that is held, the next item of the schedule, or a turn of the free schedule
(Machine/Schedule.lean). -/
def step (s : State) : Host.Outcome State Fault Refusal := scheduleStep s

/-- The same state with a word put where the step fetches its next one: first in the schedule. Nothing else changes; not
even `init` is done (log 12). -/
def State.withFetchWord (s : State) (nbits w : Nat) : State := placeWord s nbits w

/-- How a program comes to run after reset: `init`, then the program's words (spec/95_test_vectors.md Part C, log 12). -/
def State.withProgram (s : State) (ws : List OpWord) : State := placeProgram s ws

end Sys2Proof.Machine
end

