-- ==== Sys2Proof/Machine/Copies.lean ====
section
/-! DEFINITION. Machine/Copies.lean: several peripherals, each with its own block (spec/10_state.md R36,
spec/60_exceptions.md R200, INSTANCES of spec/00_scope.md R5). -/

namespace Sys2Proof.Machine

/-- The blocks by the identity of their peripheral. -/
abbrev Copies := List (Nat × State)

/-- The identities are distinct and each block carries its own, so each draws free values of its own (R200, log 23). -/
def Copies.wf : Copies → Bool
  | [] => true
  | (j, s) :: rest => s.cfg.ident == j && !(rest.map (·.1)).contains j && Copies.wf rest

/-- The block of a peripheral. -/
def Copies.block : Copies → Nat → Option State
  | [], _ => none
  | (j, s) :: rest, id => if j = id then some s else Copies.block rest id

/-- The block of a peripheral is replaced. -/
def Copies.put : Copies → Nat → State → Copies
  | [], _, _ => []
  | (j, s) :: rest, id, t => if j = id then (j, t) :: rest else (j, s) :: Copies.put rest id t

/-- Construction of one peripheral's block by its own power-on RESET, whatever the others have done ("start independently",
R200). A peripheral that has a block is not constructed again (R210). -/
def Copies.construct (c : Copies) (cfg : Config) (id : Nat) : Copies :=
  match c.block id with
  | none   => (id, State.powerOn { cfg with ident := id }) :: c
  | some _ => c

/-- One block for each identity of INSTANCES, each after its power-on RESET (R5, R200). -/
def Copies.powerOn (cfg : Config) : Copies := cfg.instances.foldr (fun id c => c.construct cfg id) []

/-- One step of one peripheral's block; the others share nothing with it and keep their state. A peripheral without a
block takes no step. -/
def Copies.stepAt (c : Copies) (id : Nat) : Host.Outcome Copies Fault Refusal :=
  match c.block id with
  | none   => .next c
  | some s =>
    match step s with
    | .next t    => .next (c.put id t)
    | .fault r   => .fault r
    | .refused r => .refused r

end Sys2Proof.Machine
end

