-- ==== Sys2Proof/WellFormed.lean ====
section
/-! DEFINITION. WellFormed.lean: what the spec admits: operations, parameters, lists of polls, line formats. -/

namespace Sys2Proof

/-- Every value of an operation's operand is legal (spec/30_encoding.md R92, spec/20_memory.md R60). -/
def Instr.wellFormed : Instr → Bool
  | .nop     => true
  | .reset   => true
  | .store _ => true
  | .avail   => true
  | .take    => true
  | .send _  => true

/-- `N >= 2` (spec/00_scope.md R5, R6: N = 1 is excluded), and INSTANCES is a set that has this block's identity in it. -/
def Config.wellFormed (c : Config) : Bool := decide (2 ≤ c.n) && decide c.instances.Nodup && c.instances.contains c.ident

/-- The polls of one `SEND b [r1, ..., rk]`: "the list must end with its only 1" (R99). -/
def wellFormedPolls : List Bool → Bool
  | []        => false
  | [r]       => r
  | r :: rest => !r && wellFormedPolls rest

/-- Where a Decimal is a number: its denominator is not 0 (log 18). -/
def Machine.Decimal.wellFormed (x : Machine.Decimal) : Bool := x.den != 0

end Sys2Proof
end

