-- ==== Sys2Proof/Safety.lean ====
section
/-! DEFINITION. Safety.lean: what counts as a safe run: the invariant of the block, quiescent and final states, and the
vocabulary claims use. -/

namespace Sys2Proof.Machine

/-- R25 (i), and R70's copies: every cursor is an integer in `[0, N)`. -/
abbrev State.cursorsInRange (s : State) : Prop :=
  s.head < s.cfg.n ∧ s.tail < s.cfg.n ∧ s.headRd < s.cfg.n ∧ s.tailWr < s.cfg.n

/-- Storage is in canonical form and has no entry outside `[0, N)` (R21, R50). -/
abbrev State.storageInRange (s : State) : Prop :=
  s.storage.wf = true ∧ ∀ c ∈ s.storage, c.1 < s.cfg.n

/-- R73: with XD_LAG = 1 the cursors stand in the order `tail_wr, tail, head_rd, head` within less than one lap. -/
abbrev State.lagOrder (s : State) : Prop :=
  s.cfg.xdLag = true →
    dist s.cfg.n s.tailWr s.tail + dist s.cfg.n s.tail s.headRd + dist s.cfg.n s.headRd s.head ≤ s.cfg.n - 1

/-- R26: every entry of the contents holds a value. -/
abbrev State.contentsWritten (s : State) : Prop :=
  ∀ k < s.occ, (s.storage.read (s.slot k)).isSome = true

/-- A STORE in progress still has its room (R28, R65), and its byte is written once STORE.2 is done (R62). -/
abbrev State.storePending (s : State) : Prop :=
  (s.pPhase ≠ .idle → s.full = false) ∧ (s.pPhase = .publish → (s.storage.read s.head).isSome = true)

/-- A TAKE in progress holds the byte of the entry at `tail`, which is still the first of the contents (R29, R26). -/
def State.takePending (s : State) : Bool :=
  match s.cPhase with
  | .idle  => true
  | .adv v => s.rdAvail && s.storage.read s.tail == some v

/-- STOREs and SENDs are issued after `init` only (R215). -/
abbrev State.busyInited (s : State) : Prop :=
  (s.pPhase ≠ .idle ∨ s.txPhase ≠ .idle) → s.inited = true

/-- Before `init` the buffer is empty: no STORE can arrive (R215). -/
abbrev State.emptyBeforeInit (s : State) : Prop := s.inited = false → s.head = s.tail

/-- A software call issues one operation at a time, the ports are where the call left them, and it goes on to TAKE only after
an AVAIL of 1 that still holds (R150, R151, R164). -/
def State.softPending (s : State) : Bool :=
  match s.soft with
  | .idle               => true
  | .read _ .poll       => s.cPhase == .idle && s.txPhase == .idle
  | .read _ .take       => s.cPhase == .idle && s.txPhase == .idle && s.rdAvail
  | .read _ .advance    => s.cPhase != .idle && s.txPhase == .idle
  | .write [] _         => false
  | .write (_ :: _) false => s.cPhase == .idle && s.txPhase == .idle
  | .write (b :: _) true  => s.cPhase == .idle && s.txPhase == .wait b

/-- A bare SEND that polls on holds its caller, and nothing it would have to wait for is in progress (R9, R131). -/
abbrev State.sendPending (s : State) : Prop :=
  s.bareSend = true → s.txBusy = true ∧ s.isrHolds = false ∧ s.soft = .idle

/-- The invariant of the block itself: parameters admitted by R5, and the conditions on its own state. -/
abbrev State.blockInv (s : State) : Prop :=
  s.cfg.wellFormed = true ∧ s.cursorsInRange ∧ s.storageInRange ∧ s.lagOrder ∧ s.contentsWritten ∧ s.storePending ∧
    s.takePending = true ∧ s.busyInited ∧ s.emptyBeforeInit

/-- The invariant: of the block, and of the normal context that drives it. -/
abbrev State.Inv (s : State) : Prop := s.blockInv ∧ s.softPending = true ∧ s.sendPending

/-- A quiescent state (spec/70_reset_and_hazards.md R228). -/
abbrev State.quiescent (s : State) : Prop :=
  s.allIdle = true ∧ (s.cfg.xdLag = true → s.headRd = s.head ∧ s.tailWr = s.tail)

/-- A run's last state is final: quiescent, nothing faulted or refused, no further item, and none of a software call's
operations to come, so an RDBYTE that polls is not final (R228). -/
abbrev State.final (s : State) : Prop :=
  s.quiescent ∧ s.fault = none ∧ s.refused = none ∧ s.sched = [] ∧ s.soft = .idle

/-- No fault and no refusal was recorded: the runs claims speak of (R181, R183). -/
abbrev State.unmarked (s : State) : Prop := s.fault = none ∧ s.refused = none

/-- Where a run starts: right after the power-on RESET, its first event (spec/70_reset_and_hazards.md R211), with admitted
parameters and with the schedule and the ready values that R11 makes parameters of the run. -/
abbrev State.start (s : State) : Prop :=
  s.cfg.wellFormed = true ∧ s = { State.powerOn s.cfg with sched := s.sched, polls := s.polls }

/-- A run (R211), as the infinite one that R134 and R151 say a model keeps; its finite runs are the beginnings. -/
abbrev IsRun (run : Nat → State) : Prop := (run 0).start ∧ ∀ k, step (run k) = .next (run (k + 1))

/-- The next step runs `init`. -/
abbrev State.initNext (s : State) : Prop := (nextTurn s).1 = some .init

/-- The premise `Inited` (spec/70_reset_and_hazards.md R214) of a run: "RESET then one `init` have happened and no other `init`
follows". A claim about the state at `m` takes it with some `k < m`. -/
abbrev PremiseInited (run : Nat → State) (k : Nat) : Prop :=
  IsRun run ∧ (run k).initNext ∧ ∀ j, (run j).initNext → j = k

/-- The premise `ReadyEventually` (spec/41_transmit_ops.md R134): whenever a SEND waits, a later poll hands its byte over. An
assumption about E, not a property of the block. -/
abbrev ReadyEventually (run : Nat → State) : Prop :=
  ∀ k b, (run k).txPhase = .wait b → ∃ m, k ≤ m ∧ (run (m + 1)).txLog = (run m).txLog ++ [b]

/-- Weak fairness of X (spec/20_memory.md R76): a copy that lags is eventually moved. An assumption, not a property. -/
abbrev FairSynchroniser (run : Nat → State) : Prop :=
  ∀ k, (syncHEnabled (run k) = true → ∃ m, k ≤ m ∧ ((run (m + 1)).headRd ≠ (run k).headRd ∨ syncHEnabled (run m) = false)) ∧
    (syncTEnabled (run k) = true → ∃ m, k ≤ m ∧ ((run (m + 1)).tailWr ≠ (run k).tailWr ∨ syncTEnabled (run m) = false))

/-- The bytes TAKEs returned, in order (R13). -/
def State.takenBytes (s : State) : List Byte :=
  s.rdLog.filterMap fun r =>
    match r with
    | .byte v  => some v
    | .avail _ => none

/-- Bare operations one after the other, with nothing between them (R9, R99); of a SEND, the polls laid down. -/
def runAll : List Instr → State → Out
  | [], s => .next s
  | i :: rest, s => andThen (exec i s) (runAll rest)

/-- `k` turns of the software with no other agent's step between them (R150). -/
def softTurns : Nat → State → Out
  | 0, s => .next s
  | k + 1, s => andThen (softTurn s) (softTurns k)

/-- The same state with the transmit unit's own state replaced (spec/41_transmit_ops.md R130). -/
def State.withTransmit (s : State) (ph : TxPhase) (log : List Byte) (polls : List Bool) (drawn : Nat)
    (bare : Bool) : State :=
  { s with txPhase := ph, txLog := log, polls := polls, drawn := drawn, bareSend := bare }

/-- Applies `f` to the next state of an outcome. -/
def onNext (f : State → State) (o : Out) : Out :=
  match o with
  | .next s    => .next (f s)
  | .fault r   => .fault r
  | .refused r => .refused r

end Sys2Proof.Machine
end

