-- ==== Sys2Proof/Certificates/Slice0/Obligations.lean ====
section
/-! DEFINITION. Certificates/Slice0/Obligations.lean: the statements about the machine, from the numbered rules of spec/. -/

open Sys2Proof Sys2Proof.Machine

/-! ## Encoding -/

/-- R94, R95 (spec/30_encoding.md): decoding and encoding agree in both directions, for all operations and all words. -/
def Obligations.DecodeEncodeAgree : Prop :=
  (∀ (i : Instr) (w : OpWord), decode w = .ok i ↔ (i.wellFormed = true ∧ encode i = w)) ∧
  ∀ i : Instr, decodeTableWord 16 (encode i).toNat = some i

/-- R94's examples and rows: words written out bit by bit. -/
def Obligations.SampleWordsDecode : Prop :=
  decode 0b000000000000#12 = .ok .nop ∧ decode 0b000100000000#12 = .ok .reset ∧
  decode 0b010001000001#12 = .ok (.store 0x41) ∧ decode 0b100000000000#12 = .ok .avail ∧
  decode 0b100100000000#12 = .ok .take ∧ decode 0b110000001101#12 = .ok (.send 0x0D)

/-- R95: which words are reserved, by opcode nibble and data field, and that a word selects at most one row (R94). -/
def Obligations.ReservedWordsAreTheRest : Prop :=
  ∀ w : OpWord,
    (decode w = .error (.illegalOp w) ↔
      (w.extractLsb' 8 4 ∈ ([2, 3, 5, 6, 7, 10, 11, 13, 14, 15] : List (BitVec 4)) ∨
        (w.extractLsb' 8 4 ∈ ([0, 1, 8, 9] : List (BitVec 4)) ∧ w.extractLsb' 0 8 ≠ 0#8))) ∧
    (reserved w = true ↔ decode w = .error (.illegalOp w)) ∧
    (opcodeRows.filter (rowSelects · w)).length ≤ 1

/-! ## The step and the schedule -/

/-- R9, R91, R99: where the schedule's first item is a word that decodes to `i` and nothing holds it, the step is `exec` of `i` on
the state less that item. A word waits only for what must not be broken into: the polls of a bare SEND (R9), with ATOMIC_ISR = 1
a STORE in progress (R5, R188), which STORE alone may reach, and a software call in progress (R150), for which STORE and NOP
do not wait. The schedule as a list, and the bare operation as `exec`, are the model's (logs 2, 5, 10 and 15). -/
def Obligations.StepRunsDecodedWord : Prop :=
  ∀ (s : State) (w : OpWord) (i : Instr) (rest : List Item),
    s.sched = .word w :: rest → decode w = .ok i → s.bareSend = false →
    (enabled s (.word w) = true ↔
      (s.isrHolds = false ∨ instrAgent i = .producer) ∧ (s.soft = .idle ∨ instrAgent i = .producer ∨ i = .nop)) ∧
    (enabled s (.word w) = true → step s = exec i { s with sched := rest })

/-- The word put in the schedule is what the next step runs, and nothing of it is left behind, where nothing holds it (the
model's, logs 11 and 12; what holds a word: StepRunsDecodedWord). -/
def Obligations.FetchWordRunsNext : Prop :=
  ∀ (s : State) (nbits w : Nat) (i : Instr), decodeTableWord nbits w = some i → s.bareSend = false →
    (s.isrHolds = false ∨ instrAgent i = .producer) → (s.soft = .idle ∨ instrAgent i = .producer ∨ i = .nop) →
    step (s.withFetchWord nbits w) = exec i s

/-- R95: a reserved word is refused ILLEGAL_OP: only `refused` changes, and the first cause stays (R33); in every state, and as
the schedule's first item where no bare SEND and no contiguous STORE is in progress (logs 5 and 10). That the refusal is a next
state is the model's reading (log 1). -/
def Obligations.ReservedWordRefused : Prop :=
  ∀ (s : State) (w : OpWord), reserved w = true →
    runItem (.word w) s = .next { s with refused := if s.refused = none then some (.illegalOp w) else s.refused } ∧
    ∀ rest, s.sched = .word w :: rest → s.bareSend = false → s.isrHolds = false →
      step s = runItem (.word w) { s with sched := rest }

/-- R184, R190: a receive interrupt that arrives during a STORE, in whichever of its phases, waits and is not lost; the STORE.2
and STORE.3 that lift the hold run before it, and then P issues STORE.1 with its byte. The schedule as a list is the model's
(log 2). -/
def Obligations.HeldInterruptWaits : Prop :=
  ∀ (s : State) (b : Byte) (rest : List Item), s.inited = true → s.bareSend = false →
    (s.pPhase = .publish → s.sched = .interrupt b :: .store3 :: rest →
      ∃ t, step s = .next t ∧
        t = { s with head := inc s.cfg.n s.head, pPhase := .idle, sched := .interrupt b :: rest } ∧
        step t = .next (store1 b { t with sched := rest })) ∧
    (∀ c, s.pPhase = .write c → s.head < s.cfg.n → s.sched = .interrupt b :: .store2 :: .store3 :: rest →
      ∃ t u, step s = .next t ∧
        t = { s with
          storage := s.storage.write s.head c, pPhase := .publish, sched := .interrupt b :: .store3 :: rest } ∧
        step t = .next u ∧
        u = { t with head := inc s.cfg.n s.head, pPhase := .idle, sched := .interrupt b :: rest } ∧
        step u = .next (store1 b { u with sched := rest }))

/-- Log 3 (the model's choice): with no item to run, a step is the free schedule's choice, or nothing where that is held. -/
def Obligations.EmptyScheduleTakesFreeTurn : Prop :=
  ∀ s : State, s.sched = [] → s.bareSend = false →
    (enabled { s with turns := s.turns + 1 } (Config.choice s.cfg.ident s.turns) = true →
      step s = runItem (Config.choice s.cfg.ident s.turns) { s with turns := s.turns + 1 }) ∧
    (enabled { s with turns := s.turns + 1 } (Config.choice s.cfg.ident s.turns) = false →
      step s = .next { s with turns := s.turns + 1 })

/-! ## The system operations -/

/-- R141: NOP changes nothing, in any state, and as a scheduled word where no bare SEND and no contiguous STORE is in progress
(the schedule is the model's, logs 2, 5 and 10). -/
def Obligations.NopChangesNothing : Prop :=
  ∀ s : State, exec .nop s = .next s ∧
    ∀ rest, s.sched = .word 0x000 :: rest → s.bareSend = false → s.isrHolds = false →
      step s = .next { s with sched := rest }

/-- R142, R75: RESET with all sequencers idle: the cursors and, with XD_LAG = 1, their copies are 0, the buffer is empty, and
storage and the ghosts are left as they were. -/
def Obligations.ResetClearsCursors : Prop :=
  ∀ s : State, s.pPhase = .idle → s.cPhase = .idle → s.txPhase = .idle →
    ∃ t, exec .reset s = .next t ∧
      t = { s with
        head := 0, tail := 0
        headRd := if s.cfg.xdLag then 0 else s.headRd
        tailWr := if s.cfg.xdLag then 0 else s.tailWr } ∧
      t.occ = 0 ∧ t.contents = [] ∧ t.rdAvail = false

/-- R143: RESET with any sequencer not idle is refused RESET_BUSY, which records the three phases (R182). That the
refusal is a next state is the model's reading (log 1). -/
def Obligations.ResetBusyRefused : Prop :=
  ∀ s : State, (s.pPhase ≠ .idle ∨ s.cPhase ≠ .idle ∨ s.txPhase ≠ .idle) →
    exec .reset s = .next { s with
      refused := if s.refused = none then some (.resetBusy s.pPhase s.cPhase s.txPhase) else s.refused }

/-- R144, R214: `init` sets `inited` and nothing else; a second `init` is refused REINIT (a next state, log 1); in every state, and
as the schedule's first item where the normal context is free to issue it (logs 5, 10 and 15). -/
def Obligations.InitHappensOnce : Prop :=
  ∀ s : State,
    (s.inited = false → runItem .init s = .next { s with inited := true }) ∧
    (s.inited = true → runItem .init s = .next { s with
      refused := if s.refused = none then some .reinit else s.refused }) ∧
    ∀ rest, s.sched = .init :: rest → s.bareSend = false → s.isrHolds = false → s.soft = .idle →
      step s = runItem .init { s with sched := rest }

/-- R215: between RESET and `init`, in whatever state: no receive interrupt, STORE and SEND refused NOT_INITED whatever their port
does (R191); and in every state that meets the invariant, AVAIL answers 0 and TAKE faults TAKE_EMPTY. Faults and refusals as
next states: log 1; the home of AVAIL's bit: log 6. -/
def Obligations.BeforeInit : Prop :=
  ∀ s : State, s.inited = false →
    (∀ b : Byte, enabled s (.interrupt b) = false ∧
      exec (.store b) s = .next { s with
        refused := if s.refused = none then some (.notInited (.store b)) else s.refused } ∧
      exec (.send b) s = .next { s with
        refused := if s.refused = none then some (.notInited (.send b)) else s.refused }) ∧
    (s.Inv →
      exec .avail s = .next { s with rdLog := s.rdLog ++ [.avail false] } ∧
      exec .take s = .next { s with fault := if s.fault = none then some (.takeEmpty s.head s.tail) else s.fault })

/-- R38: what the power-on RESET leaves, for all parameters R5 admits; `State.reset` is that with R5's defaults
(the model's choice, log 7). -/
def Obligations.PowerOnValues : Prop :=
  State.reset = State.powerOn
    { n := 64, xdLag := false, atomicIsr := false, ipm := 26, scratch := 20, baudRate := 0, instances := [0], ident := 0 } ∧
  ∀ cfg : Config, cfg.wellFormed = true →
    ∀ s, s = State.powerOn cfg →
      s.head = 0 ∧ s.tail = 0 ∧ (∀ i, s.storage.read i = none) ∧ s.pPhase = .idle ∧ s.cPhase = .idle ∧
      s.txPhase = .idle ∧ s.headRd = 0 ∧ s.tailWr = 0 ∧ s.rdAvail = false ∧ s.full = false ∧ s.txBusy = false ∧
      s.txLog = [] ∧ s.drops = 0 ∧ s.fault = none ∧ s.refused = none ∧ s.inited = false

/-! ## STORE -/

/-- R111: STORE.1 drops the byte on a full buffer and latches it otherwise. -/
def Obligations.Store1TestsFull : Prop :=
  ∀ (s : State) (b : Byte), s.inited = true → s.pPhase = .idle →
    (inc s.cfg.n s.head = s.tailP → runItem (.store1 b) s = .next { s with drops := s.drops + 1 }) ∧
    (inc s.cfg.n s.head ≠ s.tailP → runItem (.store1 b) s = .next { s with pPhase := .write b })

/-- R112: STORE.2 writes the byte at `head`; neither `rd_avail` nor `occ` changes. -/
def Obligations.Store2WritesAtHead : Prop :=
  ∀ (s : State) (b : Byte), s.pPhase = .write b → s.head < s.cfg.n →
    ∃ t, runItem .store2 s = .next t ∧
      t = { s with storage := s.storage.write s.head b, pPhase := .publish } ∧
      t.storage.read s.head = some b ∧ (∀ a, a ≠ s.head → t.storage.read a = s.storage.read a) ∧
      t.rdAvail = s.rdAvail ∧ t.occ = s.occ

/-- R113: STORE.3 advances `head`; `occ` grows by 1 and the buffer is not empty. -/
def Obligations.Store3PublishesHead : Prop :=
  ∀ s : State, s.Inv → s.pPhase = .publish →
    ∃ t, runItem .store3 s = .next t ∧ t = { s with head := inc s.cfg.n s.head, pPhase := .idle } ∧
      t.occ = s.occ + 1 ∧ t.head ≠ t.tail

/-- R111 to R113, R26: a STORE on a buffer that is not full completes: the byte is in storage at the old `head`, `head` is
one on, and the contents have it as their last byte. -/
def Obligations.StoreAppendsByte : Prop :=
  ∀ (s : State) (b : Byte), s.Inv → s.inited = true → s.pPhase = .idle → inc s.cfg.n s.head ≠ s.tailP →
    ∃ t, exec (.store b) s = .next t ∧
      t = { s with storage := s.storage.write s.head b, head := inc s.cfg.n s.head } ∧
      t.contents = s.contents ++ [some b]

/-- R111, R220: a STORE on a full buffer is dropped: only the ghost `drops` changes. -/
def Obligations.StoreOnFullDropsNewest : Prop :=
  ∀ (s : State) (b : Byte), s.inited = true → s.pPhase = .idle → inc s.cfg.n s.head = s.tailP →
    exec (.store b) s = .next { s with drops := s.drops + 1 }

/-- R37, R64: what a STORE leaves unchanged, in whatever state and whatever becomes of it. It stores only where it is
accepted, at `head`. -/
def Obligations.StoreFrame : Prop :=
  ∀ (s t : State) (b : Byte), exec (.store b) s = .next t →
    (t.cfg = s.cfg ∧ t.tail = s.tail ∧ t.cPhase = s.cPhase ∧ t.txPhase = s.txPhase ∧ t.headRd = s.headRd ∧
      t.tailWr = s.tailWr ∧ t.txLog = s.txLog ∧ t.fault = s.fault ∧ t.inited = s.inited ∧ t.rdLog = s.rdLog ∧
      t.polls = s.polls ∧ t.drawn = s.drawn ∧ t.bareSend = s.bareSend ∧ t.sched = s.sched ∧ t.turns = s.turns ∧
      t.soft = s.soft ∧ t.softLog = s.softLog) ∧
    (storeAccepted b s = true →
      (∀ a, a ≠ s.head → t.storage.read a = s.storage.read a) ∧ t.drops = s.drops ∧ t.refused = s.refused) ∧
    (storeAccepted b s = false →
      (∀ a, t.storage.read a = s.storage.read a) ∧ t.head = s.head ∧ t.pPhase = s.pPhase)

/-! ## AVAIL and TAKE -/

/-- R114: AVAIL returns `head_c != tail` on RD, in the model's `rdLog` (log 6), and changes nothing else. -/
def Obligations.AvailReturnsNonEmpty : Prop :=
  ∀ s : State, s.cPhase = .idle →
    exec .avail s = .next { s with rdLog := s.rdLog ++ [.avail (decide (s.headC ≠ s.tail))] }

/-- R114: "Once AVAIL has returned 1 it stays true until C's own next TAKE.2": over every step, whether it runs an item of the
schedule, a poll or a turn of the free schedule (logs 2 and 3), but a RESET. -/
def Obligations.AvailStaysTrueUntilTake : Prop :=
  ∀ s t : State, s.Inv → (nextTurn s).1 ≠ some (.word 0x100) → s.rdAvail = true → step s = .next t →
    t.rdAvail = true ∨ s.takenBytes.length < t.takenBytes.length

/-- R115: TAKE.1 on a buffer that C sees as not empty latches the byte of the entry at `tail`, which holds one. -/
def Obligations.Take1ReadsTail : Prop :=
  ∀ s : State, s.Inv → s.cPhase = .idle → s.headC ≠ s.tail →
    ∃ v, s.storage.read s.tail = some v ∧ runItem .take1 s = .next { s with cPhase := .adv v }

/-- R116, R183: TAKE and TAKE.1 on an empty buffer record TAKE_EMPTY, with `head` and `tail` (R182), unless a cause is
recorded already, and change nothing else. That the fault is a next state is the model's reading (log 1). -/
def Obligations.TakeOnEmptyFaults : Prop :=
  ∀ s : State, s.cPhase = .idle → s.headC = s.tail →
    exec .take s = .next { s with fault := if s.fault = none then some (.takeEmpty s.head s.tail) else s.fault } ∧
    runItem .take1 s = .next { s with fault := if s.fault = none then some (.takeEmpty s.head s.tail) else s.fault }

/-- R117: TAKE.2 advances `tail` and returns the byte; `occ` shrinks by 1 and, with XD_LAG = 0, `rd_avail` is 0 if the buffer
is now empty and `full` is 0. The byte is returned in the model's `rdLog` (log 6). -/
def Obligations.Take2AdvancesTail : Prop :=
  ∀ (s : State) (v : Byte), s.Inv → s.cPhase = .adv v →
    ∃ t, runItem .take2 s = .next t ∧
      t = { s with tail := inc s.cfg.n s.tail, cPhase := .idle, rdLog := s.rdLog ++ [.byte v] } ∧
      t.occ + 1 = s.occ ∧
      (s.cfg.xdLag = false → (t.rdAvail = false ↔ t.occ = 0) ∧ t.full = false)

/-- R115, R117, R26: a TAKE on a buffer that is not empty completes: it returns the oldest byte (in `rdLog`,
log 6) and leaves the rest. -/
def Obligations.TakeReturnsOldest : Prop :=
  ∀ s : State, s.Inv → s.cPhase = .idle → s.headC ≠ s.tail →
    ∃ v t, s.contents = some v :: t.contents ∧ exec .take s = .next t ∧
      t = { s with tail := inc s.cfg.n s.tail, rdLog := s.rdLog ++ [.byte v] }

/-- R37, R57: what AVAIL and TAKE leave unchanged, in whatever state. AVAIL moves no cursor and starts no TAKE. -/
def Obligations.ConsumerFrame : Prop :=
  ∀ (s t : State) (i : Instr), (i = .avail ∨ i = .take) → exec i s = .next t →
    t.cfg = s.cfg ∧ (∀ a, t.storage.read a = s.storage.read a) ∧ t.head = s.head ∧ t.pPhase = s.pPhase ∧
    t.txPhase = s.txPhase ∧ t.headRd = s.headRd ∧ t.tailWr = s.tailWr ∧ t.txLog = s.txLog ∧ t.drops = s.drops ∧
    t.inited = s.inited ∧ t.polls = s.polls ∧ t.drawn = s.drawn ∧ t.bareSend = s.bareSend ∧ t.sched = s.sched ∧
    t.turns = s.turns ∧ t.soft = s.soft ∧ t.softLog = s.softLog ∧ t.cPhase = s.cPhase ∧
    (i = .avail → t.tail = s.tail ∧ t.fault = s.fault) ∧
    (s.cPhase = .idle → t.refused = s.refused)

/-- R182, R184, R191: an operation on a port whose sequencer is not idle is refused PORT_BUSY with its port, none of its
effect happens, and STORE and SEND report it only where `init` is done (a next state, log 1). -/
def Obligations.BusyPortRefused : Prop :=
  ∀ (s : State) (b : Byte),
    (s.inited = true → s.pPhase ≠ .idle → exec (.store b) s = .next { s with
      refused := if s.refused = none then some (.portBusy .wr) else s.refused }) ∧
    (s.cPhase ≠ .idle → exec .avail s = .next { s with
      refused := if s.refused = none then some (.portBusy .rd) else s.refused }) ∧
    (s.cPhase ≠ .idle → exec .take s = .next { s with
      refused := if s.refused = none then some (.portBusy .rd) else s.refused }) ∧
    (s.inited = true → s.txPhase ≠ .idle → exec (.send b) s = .next { s with
      refused := if s.refused = none then some (.portBusy .tx) else s.refused })

/-! ## SEND -/

/-- R131: SEND.1 latches the byte and holds the caller; while it is held a second SEND is not issued, but refused
(a next state, log 1). -/
def Obligations.Send1HoldsCaller : Prop :=
  ∀ (s : State) (b : Byte), s.inited = true → s.txPhase = .idle →
    ∃ t, runItem (.send1 b) s = .next t ∧ t = { s with txPhase := .wait b } ∧ t.txBusy = true ∧
      ∀ c, runItem (.send1 c) t = .next { t with
        refused := if t.refused = none then some (.portBusy .tx) else t.refused }

/-- R132: SEND.2 draws `pc_ready`: on 1 the byte is handed over and the caller released, on 0 nothing but the draw happens. A
draw laid down is used first; with none the value is free (log 4), and the clause about it holds for either value. The hand-over
ends a bare SEND too (the model's mark, log 5). -/
def Obligations.Send2HandsOverWhenReady : Prop :=
  ∀ (s : State) (b : Byte), s.txPhase = .wait b →
    (∀ rest, s.polls = true :: rest →
      runItem .send2 s = .next { s with
        polls := rest, txLog := s.txLog ++ [b], txPhase := .idle, bareSend := false }) ∧
    (∀ rest, s.polls = false :: rest → runItem .send2 s = .next { s with polls := rest }) ∧
    (s.polls = [] →
      (Config.pcReady s.cfg.ident s.drawn = true →
        runItem .send2 s = .next { s with
          drawn := s.drawn + 1, txLog := s.txLog ++ [b], txPhase := .idle, bareSend := false }) ∧
      (Config.pcReady s.cfg.ident s.drawn = false → runItem .send2 s = .next { s with drawn := s.drawn + 1 }))

/-- R131, R132, R99: SEND completes where the `k + 1`-th of the polls laid down is the first ready one: the byte is handed
over once, and the polls after it are left for later SENDs (the list of polls is the model's, logs 4 and 5). -/
def Obligations.SendCompletesWhenReady : Prop :=
  ∀ (s : State) (b : Byte) (k : Nat) (rest : List Bool), s.inited = true → s.txPhase = .idle →
    s.polls = List.replicate k false ++ true :: rest →
    exec (.send b) s = .next { s with polls := rest, txLog := s.txLog ++ [b], bareSend := false }

/-- R134, R9: with no ready poll laid down SEND does not complete: the caller stays held and nothing is handed over; and while
that bare SEND is held, every step is one more of its polls and nothing else (the list of polls, and the mark of a bare SEND,
are the model's, logs 4 and 5). -/
def Obligations.SendHeldWhileNotReady : Prop :=
  (∀ (s : State) (b : Byte) (k : Nat), s.inited = true → s.txPhase = .idle → s.polls = List.replicate k false →
    exec (.send b) s = .next { s with polls := [], txPhase := .wait b, bareSend := true }) ∧
  ∀ (s : State) (b : Byte), s.bareSend = true → s.txPhase = .wait b → s.polls = [] →
    step s = .next
      (if Config.pcReady s.cfg.ident s.drawn then
        { s with drawn := s.drawn + 1, txLog := s.txLog ++ [b], txPhase := .idle, bareSend := false }
      else { s with drawn := s.drawn + 1 })

/-- R130, R37: what a SEND leaves unchanged, in whatever state: all of the FIFO's state, and the model's own fields but the
polls. -/
def Obligations.SendFrame : Prop :=
  ∀ (s t : State) (b : Byte), exec (.send b) s = .next t →
    t.cfg = s.cfg ∧ (∀ a, t.storage.read a = s.storage.read a) ∧ t.head = s.head ∧ t.tail = s.tail ∧
    t.pPhase = s.pPhase ∧ t.cPhase = s.cPhase ∧ t.headRd = s.headRd ∧ t.tailWr = s.tailWr ∧ t.drops = s.drops ∧
    t.fault = s.fault ∧ t.inited = s.inited ∧ t.rdLog = s.rdLog ∧ t.drawn = s.drawn ∧ t.sched = s.sched ∧
    t.turns = s.turns ∧ t.soft = s.soft ∧ t.softLog = s.softLog ∧
    (sendRefusal b s = none → t.refused = s.refused) ∧
    (sendRefusal b s ≠ none →
      t.txLog = s.txLog ∧ t.txPhase = s.txPhase ∧ t.polls = s.polls ∧ t.bareSend = s.bareSend)

/-- R130: "The unit touches none of the FIFO's state, and the FIFO's operations touch none of the unit's": STORE, AVAIL and
TAKE do the same, and give the same results, whatever the transmit unit holds. -/
def Obligations.FifoIgnoresTransmitUnit : Prop :=
  ∀ (s : State) (i : Instr) (ph : TxPhase) (log : List Byte) (polls : List Bool) (drawn : Nat) (bare : Bool),
    (i = .avail ∨ i = .take ∨ ∃ b, i = .store b) →
    exec i (s.withTransmit ph log polls drawn bare) = onNext (State.withTransmit · ph log polls drawn bare) (exec i s)

/-! ## Lagging copies, XD_LAG = 1 -/

/-- R72: SYNC.H and SYNC.T move a copy by one where its guard holds, and are not enabled elsewhere; with ATOMIC_ISR = 1 they wait
for the STORE in progress (R5, log 10). -/
def Obligations.SyncMovesCopyByOne : Prop :=
  ∀ s : State,
    (s.cfg.xdLag = true → s.headRd ≠ s.head →
      enabled s .syncH = !s.isrHolds ∧ runItem .syncH s = .next { s with headRd := inc s.cfg.n s.headRd }) ∧
    (s.cfg.xdLag = true → s.tailWr ≠ s.tail →
      enabled s .syncT = !s.isrHolds ∧ runItem .syncT s = .next { s with tailWr := inc s.cfg.n s.tailWr }) ∧
    ((s.cfg.xdLag = false ∨ s.headRd = s.head) → enabled s .syncH = false) ∧
    ((s.cfg.xdLag = false ∨ s.tailWr = s.tail) → enabled s .syncT = false)

/-- R73: each view errs on the careful side: C sees bytes only where there are some, P sees room only where there is some. -/
def Obligations.ViewsErrOnCarefulSide : Prop :=
  ∀ s : State, s.Inv →
    (s.headC ≠ s.tail → s.head ≠ s.tail) ∧ (inc s.cfg.n s.head ≠ s.tailP → inc s.cfg.n s.head ≠ s.tail)

/-- R72, R74: as many SYNC.H steps as `head` is ahead bring its copy to `head`, and as many SYNC.T steps as `tail` is ahead bring
its copy to `tail`; X then has no enabled step of that kind. -/
def Obligations.SyncReachesHead : Prop :=
  ∀ s : State, s.Inv → s.cfg.xdLag = true →
    ((syncH^[dist s.cfg.n s.headRd s.head]) s) = { s with headRd := s.head } ∧
    enabled ((syncH^[dist s.cfg.n s.headRd s.head]) s) .syncH = false ∧
    ((syncT^[dist s.cfg.n s.tailWr s.tail]) s) = { s with tailWr := s.tail } ∧
    enabled ((syncT^[dist s.cfg.n s.tailWr s.tail]) s) .syncT = false

/-! ## Cursor arithmetic and the Gray view -/

/-- R58: `inc` on `[0, N)`. -/
def Obligations.IncIsBijection : Prop :=
  ∀ n : Nat, 2 ≤ n →
    (∀ c, c < n - 1 → inc n c = c + 1) ∧ inc n (n - 1) = 0 ∧ (∀ c, c < n → inc n c < n) ∧
    (∀ c d, c < n → d < n → inc n c = inc n d → c = d) ∧ (∀ d, d < n → ∃ c, c < n ∧ inc n c = d)

/-- R59: `dist` on `[0, N)`, the occupancy, empty and full. -/
def Obligations.DistMeasuresForward : Prop :=
  (∀ s : State, s.occ = (s.cfg.n + s.head - s.tail) % s.cfg.n) ∧
  ∀ n a b : Nat, 2 ≤ n → a < n → b < n →
    (1 ≤ n + b - a ∧ n + b - a ≤ 2 * n - 1) ∧ (a ≤ b → dist n a b = b - a) ∧ (b < a → dist n a b = n + b - a) ∧
    dist n a b < n ∧ dist n a a = 0 ∧ dist n a (inc n a) = 1 ∧ (dist n a b = 0 ↔ a = b) ∧ (dist n a b = n - 1 ↔ inc n b = a)

/-- R66: `bin` is the inverse of `gray`, in every width. -/
def Obligations.GrayHasInverse : Prop :=
  ∀ (w : Nat) (c : BitVec w), ungray (gray c) = c ∧ gray (ungray c) = c

/-- R66: `gray(c)` and `gray(c + 1)` differ in exactly one bit, including the wrap. -/
def Obligations.GrayStepChangesOneBit : Prop :=
  ∀ (w : Nat) (c : BitVec w), 0 < w → ∃ k, k < w ∧ gray c ^^^ gray (c + 1) = BitVec.twoPow w k

/-- R67: the Gray comparators equal the binary tests, where the Gray view is defined (R6, R68). -/
def Obligations.GrayComparatorsAgree : Prop :=
  ∀ s : State, s.Inv → grayDefined s.cfg = true → s.rdAvailGray = s.rdAvail ∧ s.fullGray = s.full

/-! ## The whole machine -/

/-- R38, R25: the invariant holds after the power-on RESET, for all parameters R5 admits. -/
def Obligations.InvariantAtReset : Prop :=
  State.reset.Inv ∧ ∀ cfg : Config, cfg.wellFormed = true → (State.powerOn cfg).Inv

/-- R25, R26, R62, R65, R73, R150, R164, R215: every step keeps the invariant: cursors in range, storage canonical and inside
`[0, N)`, the cyclic order of the copies, contents written, the operations in progress sound, the buffer empty before `init`, and
the software call in step with the ports it drives. -/
def Obligations.StepKeepsInvariant : Prop :=
  ∀ s t : State, s.Inv → step s = .next t → t.Inv

/-- R54, R21: no step from a state that meets the invariant stops: no out-of-range access and no read of an unwritten entry. -/
def Obligations.StepNeverStops : Prop :=
  ∀ s : State, s.Inv → ∃ t, step s = .next t

/-- R26, R118(a): over every step but that of a RESET that is admitted, bytes leave the contents at the front, in order, exactly as
RD returned them, and enter at the back; such a RESET empties the contents and returns nothing (R142). What RD returned is
read off the model's `rdLog` (log 6). -/
def Obligations.StepKeepsFifoOrder : Prop :=
  ∀ s t : State, s.Inv → step s = .next t →
    (¬((nextTurn s).1 = some (.word 0x100) ∧ s.allIdle = true) →
      ∃ appended taken : List Byte, t.takenBytes = s.takenBytes ++ taken ∧
        s.contents ++ appended.map some = taken.map some ++ t.contents) ∧
    ((nextTurn s).1 = some (.word 0x100) → s.allIdle = true → t.contents = [] ∧ t.takenBytes = s.takenBytes)

/-- R33: over every step the ghosts keep their history: causes stay, `inited` stays, `drops` never falls, `tx_log` is only
extended; and the parameters never change (R32). The clauses that `rdLog` and `softLog` are only extended speak of the model's
own fields (logs 6 and 15), which are no ghosts of R33. -/
def Obligations.GhostsKeepHistory : Prop :=
  ∀ s t : State, step s = .next t →
    (s.fault ≠ none → t.fault = s.fault) ∧ (s.refused ≠ none → t.refused = s.refused) ∧
    (s.inited = true → t.inited = true) ∧ s.drops ≤ t.drops ∧ s.txLog <+: t.txLog ∧ s.rdLog <+: t.rdLog ∧
    s.softLog <+: t.softLog ∧ t.cfg = s.cfg

/-- R20, R64, R195: single writer: only an item of P or of the receive interrupt changes storage, `head` and `p_phase`, only one
of C changes `tail` and `c_phase`, only one of T changes `tx_phase` and `tx_log`, only one of X changes `head_rd` and `tail_wr`; a
turn of the software is C's or T's (R150); RESET, which is admitted only with every sequencer idle, apart. -/
def Obligations.SingleWriter : Prop :=
  ∀ (s t : State) (it : Item), it ≠ .word 0x100 → runItem it s = .next t →
    (itemAgent s it ≠ .producer → itemAgent s it ≠ .environment →
      t.storage = s.storage ∧ t.head = s.head ∧ t.pPhase = s.pPhase) ∧
    (itemAgent s it ≠ .consumer → t.tail = s.tail ∧ t.cPhase = s.cPhase) ∧
    (itemAgent s it ≠ .transmitter → t.txPhase = s.txPhase ∧ t.txLog = s.txLog) ∧
    (itemAgent s it ≠ .synchroniser → t.headRd = s.headRd ∧ t.tailWr = s.tailWr)

/-- R5, R188, ATOMIC_ISR = 1: the micro-steps of a STORE are contiguous: while one is in progress a step is P's or does nothing,
so no step of the normal context, of X or of the host falls inside it (log 10). -/
def Obligations.AtomicIsrShutsOutNormalContext : Prop :=
  ∀ s t : State, s.Inv → s.cfg.atomicIsr = true → s.pPhase ≠ .idle → step s = .next t →
    (∀ it, (nextTurn s).1 = some it → itemAgent s it = .producer) ∧
    t.tail = s.tail ∧ t.cPhase = s.cPhase ∧ t.txPhase = s.txPhase ∧ t.headRd = s.headRd ∧ t.tailWr = s.tailWr ∧
    t.txLog = s.txLog ∧ t.fault = s.fault ∧ t.inited = s.inited ∧ t.rdLog = s.rdLog ∧ t.soft = s.soft ∧
    t.softLog = s.softLog

/-- R65, R118(d), with XD_LAG = 0: a STORE in progress and a TAKE that may be issued do not meet: their micro-steps give the
same state in either order. -/
def Obligations.StoreAndTakeCommute : Prop :=
  ∀ s : State, s.Inv → s.cfg.xdLag = false → s.pPhase ≠ .idle → s.headC ≠ s.tail →
    andThen (store2 s) take1 = andThen (take1 s) store2 ∧ andThen (store3 s) take1 = andThen (take1 s) store3 ∧
    andThen (store2 s) take2 = andThen (take2 s) store2 ∧ andThen (store3 s) take2 = andThen (take2 s) store3

/-- R118(e), the document's property 1: from an empty idle block, 1 to N - 1 STOREs, then AVAIL, then as many TAKEs, then
AVAIL: the bytes come back unchanged and in order, and nothing is dropped. What RD returned is the model's `rdLog` (log 6). -/
def Obligations.StoredBytesComeBackInOrder : Prop :=
  ∀ (s : State) (bytes : List Byte), s.Inv → s.cfg.xdLag = false → s.inited = true → s.pPhase = .idle →
    s.cPhase = .idle → s.head = s.tail → 1 ≤ bytes.length → bytes.length ≤ s.cfg.usable →
    ∃ t, runAll (bytes.map .store ++ [.avail] ++ List.replicate bytes.length .take ++ [.avail]) s = .next t ∧
      t.rdLog = s.rdLog ++ [.avail true] ++ bytes.map .byte ++ [.avail false] ∧ t.drops = s.drops ∧
      t.fault = s.fault ∧ t.refused = s.refused ∧ t.head = t.tail

/-- R118(f), the document's property 2: from an empty idle block, N STOREs keep the first N - 1 bytes and drop the last. -/
def Obligations.OverflowDropsOnlyTheLast : Prop :=
  ∀ (s : State) (bytes : List Byte) (last : Byte), s.Inv → s.cfg.xdLag = false → s.inited = true → s.pPhase = .idle →
    s.head = s.tail → bytes.length = s.cfg.usable →
    ∃ t, runAll ((bytes ++ [last]).map .store) s = .next t ∧ t.contents = bytes.map some ∧ t.drops = s.drops + 1 ∧
      t.refused = s.refused

/-- R36, R200 (log 23): a step of one peripheral's block leaves every other peripheral's block as it was, is the step of that
block alone, and keeps each block's own identity, which keys its free values (logs 3 and 4). -/
def Obligations.CopiesShareNothing : Prop :=
  ∀ (c d : Copies) (id : Nat), c.stepAt id = .next d →
    (∀ other, other ≠ id → d.block other = c.block other) ∧
    (∀ s, c.block id = some s → ∃ t, step s = .next t ∧ d.block id = some t) ∧
    (c.wf = true → d.wf = true)

/-! ## The software of the normal context -/

/-- R151, R152: RDBYTE with a timeout on a buffer that stays empty makes exactly `t * IPM` AVAILs, all 0, and then returns
TIMED_OUT with no byte. The software's state is the model's (log 15). -/
def Obligations.ReadByteTimesOutAfterBudget : Prop :=
  ∀ (s : State) (t : Nat), t ≠ 0 → s.soft = .idle → s.cPhase = .idle → s.headC = s.tail →
    softTurns (t * s.cfg.ipm + 1) (startCall (.rdByte t) s) = .next { s with
      rdLog := s.rdLog ++ List.replicate (t * s.cfg.ipm) (.avail false)
      softLog := s.softLog ++ [.byte .timedOut none] }

/-- R151: RDBYTE with timeout 0 never gives up: after any number of AVAILs that answered 0 it still polls (log 15). -/
def Obligations.ReadByteWithoutTimeoutKeepsPolling : Prop :=
  ∀ (s : State) (k : Nat), s.soft = .idle → s.cPhase = .idle → s.headC = s.tail →
    ∃ t, softTurns k (startCall (.rdByte 0) s) = .next t ∧ t.softLog = s.softLog ∧
      t.rdLog = s.rdLog ++ List.replicate k (.avail false) ∧ softReady t = true

/-- R151, R164: RDBYTE on a buffer that is not empty returns SUCCESS with the oldest byte, after one AVAIL and one TAKE; and no
turn of a software call faults (RDBYTE "never raises `TAKE_EMPTY`"), advances `head` or writes storage (log 15). -/
def Obligations.ReadByteReturnsOldest : Prop :=
  (∀ (s : State) (t : Nat), s.Inv → s.soft = .idle → s.cPhase = .idle → s.headC ≠ s.tail → (t = 0 ∨ s.cfg.ipm ≠ 0) →
    ∃ v rest, s.contents = some v :: rest ∧
      softTurns 3 (startCall (.rdByte t) s) = .next { s with
        tail := inc s.cfg.n s.tail
        rdLog := s.rdLog ++ [.avail true, .byte v]
        softLog := s.softLog ++ [.byte .success (some v)] }) ∧
  ∀ s t : State, s.Inv → softTurn s = .next t → t.fault = s.fault ∧ t.head = s.head ∧ t.storage = s.storage

/-- R153, R154: what RDLINE does with one byte: CR ends the line with a NUL in its place, LF before the first accepted byte is
skipped, any other byte is appended while the NUL still fits, else the line is refused; a CR with no room for the NUL is
refused by the model's reading (log 19). -/
def Obligations.ReadLineTakesByte : Prop :=
  ∀ (s : State) (timeout maxLen : Nat) (buffer : List Byte) (v : Byte),
    let l : LineJob := { maxLen := maxLen, use := .line, buffer := buffer }
    (buffer.length < maxLen → lineByte timeout l 0x0D s = { s with
      soft := .idle, softLog := s.softLog ++ [.line .success (buffer ++ [0x00])] }) ∧
    (maxLen ≤ buffer.length → lineByte timeout l 0x0D s = { s with
      soft := .idle, refused := if s.refused = none then some (.lineTooLong maxLen) else s.refused }) ∧
    (buffer = [] → lineByte timeout l 0x0A s = { s with
      soft := .read { timeout := timeout, budget := timeout * s.cfg.ipm, line := some l } .poll }) ∧
    (v ≠ 0x0D → (v ≠ 0x0A ∨ buffer ≠ []) → buffer.length + 1 < maxLen → lineByte timeout l v s = { s with
      soft := .read { timeout := timeout, budget := timeout * s.cfg.ipm,
                      line := some { l with buffer := buffer ++ [v] } } .poll }) ∧
    (v ≠ 0x0D → (v ≠ 0x0A ∨ buffer ≠ []) → maxLen ≤ buffer.length + 1 → lineByte timeout l v s = { s with
      soft := .idle, refused := if s.refused = none then some (.lineTooLong maxLen) else s.refused })

/-- R155 to R159: a write call, with the controller ready at every poll, hands over exactly its bytes in order and returns
(the bytes of numbers: logs 16 and 18). -/
def Obligations.WriteCallSendsItsBytes : Prop :=
  ∀ (s : State) (c : Call) (rest : List Bool), isWriteCall c = true → s.inited = true → s.soft = .idle →
    s.txPhase = .idle → s.bareSend = false → s.polls = List.replicate (callBytes c).length true ++ rest →
    softTurns (2 * (callBytes c).length) (startCall c s) = .next { s with
      polls := rest, txLog := s.txLog ++ callBytes c, softLog := s.softLog ++ [.written] }

/-- R157, the document's property 7: an integer's text parses back to the integer; the sign's spelling, the integers of every
size and the grammar are the model's (logs 16 and 17). -/
def Obligations.IntegerTextRoundTrips : Prop :=
  ∀ i : Int, parseDecimal (intText i) = some i ∧ ∀ ident k, parseValue ident k (intText i) = i

/-- R159: the binary dump is one character a bit, the most significant first. -/
def Obligations.BinaryTextIsMsbFirst : Prop :=
  ∀ w x : Nat, (binaryText w x).length = w ∧
    ∀ k, k < w → (binaryText w x)[w - 1 - k]? = some (if x.testBit k then 0x31 else 0x30)
end

