-- ==== Sys2Proof/Laws/Cursor.lean ====
section
/-! SUPPORT. Laws/Cursor.lean: cursor arithmetic as disjunctions that omega can finish. -/

namespace Sys2Proof.Machine

theorem mod_spec {n x : Nat} (h : x < 2 * n) : (x < n ∧ x % n = x) ∨ (n ≤ x ∧ x % n = x - n) := by
  rcases Nat.lt_or_ge x n with hx | hx
  · exact .inl ⟨hx, Nat.mod_eq_of_lt hx⟩
  · refine .inr ⟨hx, ?_⟩
    rw [Nat.mod_eq_sub_mod hx]
    exact Nat.mod_eq_of_lt (by omega)

theorem inc_spec {n c : Nat} (h : c < n) : (c + 1 < n ∧ inc n c = c + 1) ∨ (c + 1 = n ∧ inc n c = 0) := by
  have := mod_spec (n := n) (x := c + 1) (by omega)
  simp only [inc]; omega

theorem dist_spec {n a b : Nat} (ha : a < n) (hb : b < n) :
    (a ≤ b ∧ dist n a b = b - a) ∨ (b < a ∧ dist n a b = n + b - a) := by
  have := mod_spec (n := n) (x := n + b - a) (by omega)
  simp only [dist]; omega

theorem slot_spec {s : State} {k : Nat} (ht : s.tail < s.cfg.n) (hk : k < s.cfg.n) :
    (s.tail + k < s.cfg.n ∧ s.slot k = s.tail + k) ∨ (s.cfg.n ≤ s.tail + k ∧ s.slot k = s.tail + k - s.cfg.n) := by
  have := mod_spec (n := s.cfg.n) (x := s.tail + k) (by omega)
  simp only [State.slot]; omega

theorem inc_lt {n : Nat} (hn : 0 < n) (c : Nat) : inc n c < n := Nat.mod_lt _ hn

theorem dist_lt {n : Nat} (hn : 0 < n) (a b : Nat) : dist n a b < n := Nat.mod_lt _ hn

theorem slot_lt {s : State} (hn : 0 < s.cfg.n) (k : Nat) : s.slot k < s.cfg.n := Nat.mod_lt _ hn

theorem wellFormed_n {c : Config} (h : c.wellFormed = true) : 2 ≤ c.n := by
  simp only [Config.wellFormed, Bool.and_eq_true, decide_eq_true_eq] at h
  exact h.1.1

/-- A cursor fits its W bits (R5, R22). -/
theorem n_le_two_pow_width (c : Config) : c.n ≤ 2 ^ cursorWidth c := by
  unfold cursorWidth
  split
  · simp; omega
  · have := Nat.lt_log2_self (n := c.n - 1)
    omega

theorem rdAvail_iff {s : State} : s.rdAvail = true ↔ s.headC ≠ s.tail := by simp [State.rdAvail]

theorem full_iff {s : State} : s.full = true ↔ inc s.cfg.n s.head = s.tailP := by simp [State.full, State.succ]

theorem not_full_iff {s : State} : s.full = false ↔ inc s.cfg.n s.head ≠ s.tailP := by simp [State.full, State.succ]

theorem headC_direct {s : State} (h : s.cfg.xdLag = false) : s.headC = s.head := by simp [State.headC, h]

theorem tailP_direct {s : State} (h : s.cfg.xdLag = false) : s.tailP = s.tail := by simp [State.tailP, h]

theorem headC_lag {s : State} (h : s.cfg.xdLag = true) : s.headC = s.headRd := by simp [State.headC, h]

theorem tailP_lag {s : State} (h : s.cfg.xdLag = true) : s.tailP = s.tailWr := by simp [State.tailP, h]

end Sys2Proof.Machine
end

