-- ==== Sys2Proof/Laws/State.lean ====
section
/-! SUPPORT. Laws/State.lean: one lemma per field for each named update of the state, true by rfl. -/

namespace Sys2Proof.Machine

@[simp] theorem State.raiseFault_cfg (c : FaultCause) (s : State) : (s.raiseFault c).cfg = s.cfg := rfl
@[simp] theorem State.raiseFault_storage (c : FaultCause) (s : State) : (s.raiseFault c).storage = s.storage := rfl
@[simp] theorem State.raiseFault_head (c : FaultCause) (s : State) : (s.raiseFault c).head = s.head := rfl
@[simp] theorem State.raiseFault_tail (c : FaultCause) (s : State) : (s.raiseFault c).tail = s.tail := rfl
@[simp] theorem State.raiseFault_pPhase (c : FaultCause) (s : State) : (s.raiseFault c).pPhase = s.pPhase := rfl
@[simp] theorem State.raiseFault_cPhase (c : FaultCause) (s : State) : (s.raiseFault c).cPhase = s.cPhase := rfl
@[simp] theorem State.raiseFault_txPhase (c : FaultCause) (s : State) : (s.raiseFault c).txPhase = s.txPhase := rfl
@[simp] theorem State.raiseFault_headRd (c : FaultCause) (s : State) : (s.raiseFault c).headRd = s.headRd := rfl
@[simp] theorem State.raiseFault_tailWr (c : FaultCause) (s : State) : (s.raiseFault c).tailWr = s.tailWr := rfl
@[simp] theorem State.raiseFault_txLog (c : FaultCause) (s : State) : (s.raiseFault c).txLog = s.txLog := rfl
@[simp] theorem State.raiseFault_drops (c : FaultCause) (s : State) : (s.raiseFault c).drops = s.drops := rfl
@[simp] theorem State.raiseFault_refused (c : FaultCause) (s : State) : (s.raiseFault c).refused = s.refused := rfl
@[simp] theorem State.raiseFault_inited (c : FaultCause) (s : State) : (s.raiseFault c).inited = s.inited := rfl
@[simp] theorem State.raiseFault_rdLog (c : FaultCause) (s : State) : (s.raiseFault c).rdLog = s.rdLog := rfl
@[simp] theorem State.raiseFault_polls (c : FaultCause) (s : State) : (s.raiseFault c).polls = s.polls := rfl
@[simp] theorem State.raiseFault_drawn (c : FaultCause) (s : State) : (s.raiseFault c).drawn = s.drawn := rfl
@[simp] theorem State.raiseFault_bareSend (c : FaultCause) (s : State) : (s.raiseFault c).bareSend = s.bareSend := rfl
@[simp] theorem State.raiseFault_sched (c : FaultCause) (s : State) : (s.raiseFault c).sched = s.sched := rfl
@[simp] theorem State.raiseFault_turns (c : FaultCause) (s : State) : (s.raiseFault c).turns = s.turns := rfl
@[simp] theorem State.raiseFault_soft (c : FaultCause) (s : State) : (s.raiseFault c).soft = s.soft := rfl
@[simp] theorem State.raiseFault_softLog (c : FaultCause) (s : State) : (s.raiseFault c).softLog = s.softLog := rfl
@[simp] theorem State.raiseFault_fault (c : FaultCause) (s : State) : (s.raiseFault c).fault = s.fault.orElse fun _ => some c := rfl

@[simp] theorem State.refuse_cfg (c : RefusalCause) (s : State) : (s.refuse c).cfg = s.cfg := rfl
@[simp] theorem State.refuse_storage (c : RefusalCause) (s : State) : (s.refuse c).storage = s.storage := rfl
@[simp] theorem State.refuse_head (c : RefusalCause) (s : State) : (s.refuse c).head = s.head := rfl
@[simp] theorem State.refuse_tail (c : RefusalCause) (s : State) : (s.refuse c).tail = s.tail := rfl
@[simp] theorem State.refuse_pPhase (c : RefusalCause) (s : State) : (s.refuse c).pPhase = s.pPhase := rfl
@[simp] theorem State.refuse_cPhase (c : RefusalCause) (s : State) : (s.refuse c).cPhase = s.cPhase := rfl
@[simp] theorem State.refuse_txPhase (c : RefusalCause) (s : State) : (s.refuse c).txPhase = s.txPhase := rfl
@[simp] theorem State.refuse_headRd (c : RefusalCause) (s : State) : (s.refuse c).headRd = s.headRd := rfl
@[simp] theorem State.refuse_tailWr (c : RefusalCause) (s : State) : (s.refuse c).tailWr = s.tailWr := rfl
@[simp] theorem State.refuse_txLog (c : RefusalCause) (s : State) : (s.refuse c).txLog = s.txLog := rfl
@[simp] theorem State.refuse_drops (c : RefusalCause) (s : State) : (s.refuse c).drops = s.drops := rfl
@[simp] theorem State.refuse_fault (c : RefusalCause) (s : State) : (s.refuse c).fault = s.fault := rfl
@[simp] theorem State.refuse_inited (c : RefusalCause) (s : State) : (s.refuse c).inited = s.inited := rfl
@[simp] theorem State.refuse_rdLog (c : RefusalCause) (s : State) : (s.refuse c).rdLog = s.rdLog := rfl
@[simp] theorem State.refuse_polls (c : RefusalCause) (s : State) : (s.refuse c).polls = s.polls := rfl
@[simp] theorem State.refuse_drawn (c : RefusalCause) (s : State) : (s.refuse c).drawn = s.drawn := rfl
@[simp] theorem State.refuse_bareSend (c : RefusalCause) (s : State) : (s.refuse c).bareSend = s.bareSend := rfl
@[simp] theorem State.refuse_sched (c : RefusalCause) (s : State) : (s.refuse c).sched = s.sched := rfl
@[simp] theorem State.refuse_turns (c : RefusalCause) (s : State) : (s.refuse c).turns = s.turns := rfl
@[simp] theorem State.refuse_soft (c : RefusalCause) (s : State) : (s.refuse c).soft = s.soft := rfl
@[simp] theorem State.refuse_softLog (c : RefusalCause) (s : State) : (s.refuse c).softLog = s.softLog := rfl
@[simp] theorem State.refuse_refused (c : RefusalCause) (s : State) : (s.refuse c).refused = s.refused.orElse fun _ => some c := rfl

@[simp] theorem State.returnRd_cfg (r : RdResult) (s : State) : (s.returnRd r).cfg = s.cfg := rfl
@[simp] theorem State.returnRd_storage (r : RdResult) (s : State) : (s.returnRd r).storage = s.storage := rfl
@[simp] theorem State.returnRd_head (r : RdResult) (s : State) : (s.returnRd r).head = s.head := rfl
@[simp] theorem State.returnRd_tail (r : RdResult) (s : State) : (s.returnRd r).tail = s.tail := rfl
@[simp] theorem State.returnRd_pPhase (r : RdResult) (s : State) : (s.returnRd r).pPhase = s.pPhase := rfl
@[simp] theorem State.returnRd_cPhase (r : RdResult) (s : State) : (s.returnRd r).cPhase = s.cPhase := rfl
@[simp] theorem State.returnRd_txPhase (r : RdResult) (s : State) : (s.returnRd r).txPhase = s.txPhase := rfl
@[simp] theorem State.returnRd_headRd (r : RdResult) (s : State) : (s.returnRd r).headRd = s.headRd := rfl
@[simp] theorem State.returnRd_tailWr (r : RdResult) (s : State) : (s.returnRd r).tailWr = s.tailWr := rfl
@[simp] theorem State.returnRd_txLog (r : RdResult) (s : State) : (s.returnRd r).txLog = s.txLog := rfl
@[simp] theorem State.returnRd_drops (r : RdResult) (s : State) : (s.returnRd r).drops = s.drops := rfl
@[simp] theorem State.returnRd_fault (r : RdResult) (s : State) : (s.returnRd r).fault = s.fault := rfl
@[simp] theorem State.returnRd_refused (r : RdResult) (s : State) : (s.returnRd r).refused = s.refused := rfl
@[simp] theorem State.returnRd_inited (r : RdResult) (s : State) : (s.returnRd r).inited = s.inited := rfl
@[simp] theorem State.returnRd_polls (r : RdResult) (s : State) : (s.returnRd r).polls = s.polls := rfl
@[simp] theorem State.returnRd_drawn (r : RdResult) (s : State) : (s.returnRd r).drawn = s.drawn := rfl
@[simp] theorem State.returnRd_bareSend (r : RdResult) (s : State) : (s.returnRd r).bareSend = s.bareSend := rfl
@[simp] theorem State.returnRd_sched (r : RdResult) (s : State) : (s.returnRd r).sched = s.sched := rfl
@[simp] theorem State.returnRd_turns (r : RdResult) (s : State) : (s.returnRd r).turns = s.turns := rfl
@[simp] theorem State.returnRd_soft (r : RdResult) (s : State) : (s.returnRd r).soft = s.soft := rfl
@[simp] theorem State.returnRd_softLog (r : RdResult) (s : State) : (s.returnRd r).softLog = s.softLog := rfl
@[simp] theorem State.returnRd_rdLog (r : RdResult) (s : State) : (s.returnRd r).rdLog = s.rdLog ++ [r] := rfl

@[simp] theorem State.returnCall_cfg (r : SoftResult) (s : State) : (s.returnCall r).cfg = s.cfg := rfl
@[simp] theorem State.returnCall_storage (r : SoftResult) (s : State) : (s.returnCall r).storage = s.storage := rfl
@[simp] theorem State.returnCall_head (r : SoftResult) (s : State) : (s.returnCall r).head = s.head := rfl
@[simp] theorem State.returnCall_tail (r : SoftResult) (s : State) : (s.returnCall r).tail = s.tail := rfl
@[simp] theorem State.returnCall_pPhase (r : SoftResult) (s : State) : (s.returnCall r).pPhase = s.pPhase := rfl
@[simp] theorem State.returnCall_cPhase (r : SoftResult) (s : State) : (s.returnCall r).cPhase = s.cPhase := rfl
@[simp] theorem State.returnCall_txPhase (r : SoftResult) (s : State) : (s.returnCall r).txPhase = s.txPhase := rfl
@[simp] theorem State.returnCall_headRd (r : SoftResult) (s : State) : (s.returnCall r).headRd = s.headRd := rfl
@[simp] theorem State.returnCall_tailWr (r : SoftResult) (s : State) : (s.returnCall r).tailWr = s.tailWr := rfl
@[simp] theorem State.returnCall_txLog (r : SoftResult) (s : State) : (s.returnCall r).txLog = s.txLog := rfl
@[simp] theorem State.returnCall_drops (r : SoftResult) (s : State) : (s.returnCall r).drops = s.drops := rfl
@[simp] theorem State.returnCall_fault (r : SoftResult) (s : State) : (s.returnCall r).fault = s.fault := rfl
@[simp] theorem State.returnCall_refused (r : SoftResult) (s : State) : (s.returnCall r).refused = s.refused := rfl
@[simp] theorem State.returnCall_inited (r : SoftResult) (s : State) : (s.returnCall r).inited = s.inited := rfl
@[simp] theorem State.returnCall_rdLog (r : SoftResult) (s : State) : (s.returnCall r).rdLog = s.rdLog := rfl
@[simp] theorem State.returnCall_polls (r : SoftResult) (s : State) : (s.returnCall r).polls = s.polls := rfl
@[simp] theorem State.returnCall_drawn (r : SoftResult) (s : State) : (s.returnCall r).drawn = s.drawn := rfl
@[simp] theorem State.returnCall_bareSend (r : SoftResult) (s : State) : (s.returnCall r).bareSend = s.bareSend := rfl
@[simp] theorem State.returnCall_sched (r : SoftResult) (s : State) : (s.returnCall r).sched = s.sched := rfl
@[simp] theorem State.returnCall_turns (r : SoftResult) (s : State) : (s.returnCall r).turns = s.turns := rfl
@[simp] theorem State.returnCall_soft (r : SoftResult) (s : State) : (s.returnCall r).soft = .idle := rfl
@[simp] theorem State.returnCall_softLog (r : SoftResult) (s : State) : (s.returnCall r).softLog = s.softLog ++ [r] := rfl

@[simp] theorem State.abandonCall_cfg (s : State) : s.abandonCall.cfg = s.cfg := rfl
@[simp] theorem State.abandonCall_storage (s : State) : s.abandonCall.storage = s.storage := rfl
@[simp] theorem State.abandonCall_head (s : State) : s.abandonCall.head = s.head := rfl
@[simp] theorem State.abandonCall_tail (s : State) : s.abandonCall.tail = s.tail := rfl
@[simp] theorem State.abandonCall_pPhase (s : State) : s.abandonCall.pPhase = s.pPhase := rfl
@[simp] theorem State.abandonCall_cPhase (s : State) : s.abandonCall.cPhase = s.cPhase := rfl
@[simp] theorem State.abandonCall_txPhase (s : State) : s.abandonCall.txPhase = s.txPhase := rfl
@[simp] theorem State.abandonCall_headRd (s : State) : s.abandonCall.headRd = s.headRd := rfl
@[simp] theorem State.abandonCall_tailWr (s : State) : s.abandonCall.tailWr = s.tailWr := rfl
@[simp] theorem State.abandonCall_txLog (s : State) : s.abandonCall.txLog = s.txLog := rfl
@[simp] theorem State.abandonCall_drops (s : State) : s.abandonCall.drops = s.drops := rfl
@[simp] theorem State.abandonCall_fault (s : State) : s.abandonCall.fault = s.fault := rfl
@[simp] theorem State.abandonCall_refused (s : State) : s.abandonCall.refused = s.refused := rfl
@[simp] theorem State.abandonCall_inited (s : State) : s.abandonCall.inited = s.inited := rfl
@[simp] theorem State.abandonCall_rdLog (s : State) : s.abandonCall.rdLog = s.rdLog := rfl
@[simp] theorem State.abandonCall_polls (s : State) : s.abandonCall.polls = s.polls := rfl
@[simp] theorem State.abandonCall_drawn (s : State) : s.abandonCall.drawn = s.drawn := rfl
@[simp] theorem State.abandonCall_bareSend (s : State) : s.abandonCall.bareSend = s.bareSend := rfl
@[simp] theorem State.abandonCall_sched (s : State) : s.abandonCall.sched = s.sched := rfl
@[simp] theorem State.abandonCall_turns (s : State) : s.abandonCall.turns = s.turns := rfl
@[simp] theorem State.abandonCall_soft (s : State) : s.abandonCall.soft = .idle := rfl
@[simp] theorem State.abandonCall_softLog (s : State) : s.abandonCall.softLog = s.softLog := rfl

@[simp] theorem resetCursors_cfg (s : State) : (resetCursors s).cfg = s.cfg := rfl
@[simp] theorem resetCursors_storage (s : State) : (resetCursors s).storage = s.storage := rfl
@[simp] theorem resetCursors_head (s : State) : (resetCursors s).head = 0 := rfl
@[simp] theorem resetCursors_tail (s : State) : (resetCursors s).tail = 0 := rfl
@[simp] theorem resetCursors_pPhase (s : State) : (resetCursors s).pPhase = .idle := rfl
@[simp] theorem resetCursors_cPhase (s : State) : (resetCursors s).cPhase = .idle := rfl
@[simp] theorem resetCursors_txPhase (s : State) : (resetCursors s).txPhase = .idle := rfl
@[simp] theorem resetCursors_headRd (s : State) : (resetCursors s).headRd = (if s.cfg.xdLag then 0 else s.headRd) := rfl
@[simp] theorem resetCursors_tailWr (s : State) : (resetCursors s).tailWr = (if s.cfg.xdLag then 0 else s.tailWr) := rfl
@[simp] theorem resetCursors_txLog (s : State) : (resetCursors s).txLog = s.txLog := rfl
@[simp] theorem resetCursors_drops (s : State) : (resetCursors s).drops = s.drops := rfl
@[simp] theorem resetCursors_fault (s : State) : (resetCursors s).fault = s.fault := rfl
@[simp] theorem resetCursors_refused (s : State) : (resetCursors s).refused = s.refused := rfl
@[simp] theorem resetCursors_inited (s : State) : (resetCursors s).inited = s.inited := rfl
@[simp] theorem resetCursors_rdLog (s : State) : (resetCursors s).rdLog = s.rdLog := rfl
@[simp] theorem resetCursors_polls (s : State) : (resetCursors s).polls = s.polls := rfl
@[simp] theorem resetCursors_drawn (s : State) : (resetCursors s).drawn = s.drawn := rfl
@[simp] theorem resetCursors_bareSend (s : State) : (resetCursors s).bareSend = s.bareSend := rfl
@[simp] theorem resetCursors_sched (s : State) : (resetCursors s).sched = s.sched := rfl
@[simp] theorem resetCursors_turns (s : State) : (resetCursors s).turns = s.turns := rfl
@[simp] theorem resetCursors_soft (s : State) : (resetCursors s).soft = s.soft := rfl
@[simp] theorem resetCursors_softLog (s : State) : (resetCursors s).softLog = s.softLog := rfl

end Sys2Proof.Machine
end

