-- ==== Sys2Proof/Laws/Micro.lean ====
section
/-! SUPPORT. Laws/Micro.lean: what a step can do, said once. `Micro r s t` lists the changes the block can make, one micro-step
each, RESET's only where `r` is true; `step_micro` says that every step is a chain of them, and `runItem_micro_noReset` that an
item other than RESET is a chain without it. An invariant that each change keeps is kept by every step. -/

namespace Sys2Proof.Machine

/-- One change of the state, with the guard it is made under. -/
inductive Micro (r : Bool) : State → State → Prop
  /-- the model's own fields other than `rdLog`, `softLog` only extended; nothing of the block -/
  | own (s : State) (polls : List Bool) (drawn : Nat) (bareSend : Bool) (sched : List Item) (turns : Nat) (soft : Soft)
      (softLog : List SoftResult) (hlog : s.softLog <+: softLog) :
      Micro r s { s with polls := polls, drawn := drawn, bareSend := bareSend, sched := sched, turns := turns, soft := soft, softLog := softLog }
  | fault (s : State) (hc : s.cPhase = .idle) (ha : s.rdAvail = false) :
      Micro r s (s.raiseFault (.takeEmpty s.head s.tail))
  | refuse (s : State) (c : RefusalCause) : Micro r s (s.refuse c)
  | drop (s : State) (hi : s.inited = true) (hp : s.pPhase = .idle) (hf : s.full = true) :
      Micro r s { s with drops := s.drops + 1, pPhase := .idle }
  | latch (s : State) (b : Byte) (hi : s.inited = true) (hp : s.pPhase = .idle) (hf : s.full = false) :
      Micro r s { s with pPhase := .write b }
  | writeData (s : State) (b : Byte) (hp : s.pPhase = .write b) (hh : s.head < s.cfg.n) :
      Micro r s { s with storage := s.storage.write s.head b, pPhase := .publish }
  | publish (s : State) (hp : s.pPhase = .publish) : Micro r s { s with head := s.succ s.head, pPhase := .idle }
  | avail (s : State) (hc : s.cPhase = .idle) : Micro r s (s.returnRd (.avail s.rdAvail))
  | takeRead (s : State) (v : Byte) (hc : s.cPhase = .idle) (ha : s.rdAvail = true) (ht : s.tail < s.cfg.n)
      (hv : s.storage.read s.tail = some v) : Micro r s { s with cPhase := .adv v }
  | takeAdvance (s : State) (v : Byte) (hc : s.cPhase = .adv v) :
      Micro r s ({ s with tail := s.succ s.tail, cPhase := .idle }.returnRd (.byte v))
  | sendLatch (s : State) (b : Byte) (hi : s.inited = true) (ht : s.txPhase = .idle) :
      Micro r s { s with txPhase := .wait b }
  | handOver (s : State) (b : Byte) (ht : s.txPhase = .wait b) :
      Micro r s { s with txLog := s.txLog ++ [b], txPhase := .idle }
  | syncH (s : State) (h : syncHEnabled s = true) : Micro r s { s with headRd := s.succ s.headRd }
  | syncT (s : State) (h : syncTEnabled s = true) : Micro r s { s with tailWr := s.succ s.tailWr }
  | reset (s : State) (hr : r = true) (h : s.allIdle = true) : Micro r s (resetCursors s)
  | init (s : State) (h : s.inited = false) : Micro r s { s with inited := true }

/-- A chain of changes. -/
abbrev Micros (r : Bool) : State → State → Prop := Relation.ReflTransGen (Micro r)

variable {r : Bool}

theorem Micro.chain {s t : State} (h : Micro r s t) : Micros r s t := .single h

theorem Micros.then {s t u : State} (h : Micros r s t) (h' : Micros r t u) : Micros r s u := h.trans h'

/-- An outcome's next state is reached by a chain. -/
def Chained (r : Bool) (s : State) (o : Out) : Prop := ∀ t, o = .next t → Micros r s t

theorem chained_next {s t : State} (h : Micros r s t) : Chained r s (.next t) := by
  intro u hu; cases hu; exact h

theorem chained_andThen {s : State} {o : Out} {f : State → Out} (ho : Chained r s o)
    (hf : ∀ t, o = .next t → Chained r t (f t)) : Chained r s (andThen o f) := by
  cases o with
  | next u => exact fun t ht => (ho u rfl).trans (hf u rfl t ht)
  | fault e => intro t ht; cases ht
  | refused e => intro t ht; cases ht

theorem own_sched (s : State) (l : List Item) : Micros r s { s with sched := l } :=
  (Micro.own s s.polls s.drawn s.bareSend l s.turns s.soft s.softLog (List.prefix_refl _)).chain

theorem own_turns (s : State) (k : Nat) : Micros r s { s with turns := k } :=
  (Micro.own s s.polls s.drawn s.bareSend s.sched k s.soft s.softLog (List.prefix_refl _)).chain

theorem own_bare (s : State) (x : Bool) : Micros r s { s with bareSend := x } :=
  (Micro.own s s.polls s.drawn x s.sched s.turns s.soft s.softLog (List.prefix_refl _)).chain

theorem own_soft (s : State) (x : Soft) : Micros r s { s with soft := x } :=
  (Micro.own s s.polls s.drawn s.bareSend s.sched s.turns x s.softLog (List.prefix_refl _)).chain

theorem own_returnCall (s : State) (x : SoftResult) : Micros r s (s.returnCall x) :=
  (Micro.own s s.polls s.drawn s.bareSend s.sched s.turns .idle (s.softLog ++ [x]) (List.prefix_append _ _)).chain

/-! The micro-steps. -/

theorem storeRefusal_none {b : Byte} {s : State} :
    storeRefusal b s = none ↔ s.inited = true ∧ s.pPhase = .idle := by
  simp only [storeRefusal]
  cases s.inited <;> cases h : s.pPhase <;> simp

theorem sendRefusal_none {b : Byte} {s : State} :
    sendRefusal b s = none ↔ s.inited = true ∧ s.txPhase = .idle := by
  simp only [sendRefusal]
  cases s.inited <;> cases h : s.txPhase <;> simp

theorem store1_micro (b : Byte) (s : State) : Micros r s (store1 b s) := by
  cases h : storeRefusal b s with
  | some c => simp only [store1, h]; exact (Micro.refuse s c).chain
  | none =>
    obtain ⟨hi, hp⟩ := storeRefusal_none.mp h
    cases hf : s.full with
    | true => simp only [store1, h, hf, if_true]; exact (Micro.drop s hi hp hf).chain
    | false => simp only [store1, h, hf]; exact (Micro.latch s b hi hp hf).chain

theorem store2_micro (s : State) : Chained r s (store2 s) := by
  cases hp : s.pPhase with
  | idle => simp only [store2, hp]; exact chained_next .refl
  | publish => simp only [store2, hp]; exact chained_next .refl
  | write b =>
    by_cases hh : s.head < s.cfg.n
    · simp only [store2, hp, storeEntry, hh, if_true, andThen]
      exact chained_next (Micro.writeData s b hp hh).chain
    · simp only [store2, hp, storeEntry, hh, if_false, andThen]
      intro t ht; cases ht

theorem store3_micro (s : State) : Chained r s (store3 s) := by
  cases hp : s.pPhase with
  | idle => simp only [store3, hp]; exact chained_next .refl
  | write b => simp only [store3, hp]; exact chained_next .refl
  | publish => simp only [store3, hp]; exact chained_next (Micro.publish s hp).chain

theorem take1_micro (s : State) : Chained r s (take1 s) := by
  cases hc : s.cPhase with
  | adv v => simp only [take1, hc]; exact chained_next (Micro.refuse s _).chain
  | idle =>
    cases ha : s.rdAvail with
    | false => simp only [take1, hc, ha]; exact chained_next (Micro.fault s hc ha).chain
    | true =>
      by_cases ht : s.tail < s.cfg.n
      · cases hv : s.storage.read s.tail with
        | none => simp [take1, hc, ha, loadEntry, ht, hv, Chained]
        | some v =>
          have : take1 s = .next { s with cPhase := .adv v } := by simp [take1, hc, ha, loadEntry, ht, hv]
          rw [this]; exact chained_next (Micro.takeRead s v hc ha ht hv).chain
      · simp [take1, hc, ha, loadEntry, ht, Chained]

theorem take2_micro (s : State) : Chained r s (take2 s) := by
  cases hc : s.cPhase with
  | idle => simp only [take2, hc]; exact chained_next .refl
  | adv v => simp only [take2, hc]; exact chained_next (Micro.takeAdvance s v hc).chain

theorem send1_micro (b : Byte) (s : State) : Micros r s (send1 b s) := by
  cases h : sendRefusal b s with
  | some c => simp only [send1, h]; exact (Micro.refuse s c).chain
  | none =>
    obtain ⟨hi, ht⟩ := sendRefusal_none.mp h
    simp only [send1, h]; exact (Micro.sendLatch s b hi ht).chain

/-- A draw changes only what is laid down for the polls. -/
theorem drawReady_own (s : State) : ∃ polls drawn, s.drawReady.2 = { s with polls := polls, drawn := drawn } := by
  cases hp : s.polls with
  | nil => exact ⟨s.polls, s.drawn + 1, by simp [State.drawReady, hp]⟩
  | cons r rest => exact ⟨rest, s.drawn, by simp [State.drawReady, hp]⟩

theorem send2_micro (s : State) : Micros r s (send2 s) := by
  cases ht : s.txPhase with
  | idle => simp only [send2, ht]; exact .refl
  | wait b =>
    obtain ⟨p, d, hd⟩ := drawReady_own s
    cases hr : s.drawReady.1 with
    | false =>
      simp only [send2, ht, hr, hd, Bool.false_eq_true, if_false]
      rw [← ht]
      exact (Micro.own s p d s.bareSend s.sched s.turns s.soft s.softLog (List.prefix_refl _)).chain
    | true =>
      simp only [send2, ht, hr, hd, if_true]
      exact (Micro.handOver s b ht).chain.trans
        (Micro.own { s with txLog := s.txLog ++ [b], txPhase := .idle } p d false s.sched s.turns s.soft s.softLog (List.prefix_refl _)).chain

theorem pollTimes_micro (k : Nat) (s : State) : Micros r s (pollTimes k s) := by
  induction k generalizing s with
  | zero => exact .refl
  | succ k ih => exact (send2_micro s).trans (ih _)

theorem syncH_micro (s : State) : Micros r s (syncH s) := by
  cases h : syncHEnabled s with
  | true => simp only [syncH, h, if_true]; exact (Micro.syncH s h).chain
  | false => simp only [syncH, h]; exact .refl

theorem syncT_micro (s : State) : Micros r s (syncT s) := by
  cases h : syncTEnabled s with
  | true => simp only [syncT, h, if_true]; exact (Micro.syncT s h).chain
  | false => simp only [syncT, h]; exact .refl

theorem initBlock_micro (s : State) : Micros r s (initBlock s) := by
  cases h : s.inited with
  | true => simp only [initBlock, h, if_true]; exact (Micro.refuse s _).chain
  | false => simp only [initBlock, h]; exact (Micro.init s h).chain

/-! The operations. -/

theorem execStore_micro (b : Byte) (s : State) : Chained r s (execStore b s) := by
  rw [execStore]; split
  · exact chained_andThen (fun t ht => (store1_micro b s).trans (store2_micro _ t ht)) fun t _ => store3_micro t
  · exact chained_next (store1_micro b s)

theorem execAvail_micro (s : State) : Chained r s (execAvail s) := by
  cases hc : s.cPhase with
  | adv v => simp only [execAvail, hc]; exact chained_next (Micro.refuse s _).chain
  | idle => simp only [execAvail, hc]; exact chained_next (Micro.avail s hc).chain

theorem execTake_micro (s : State) : Chained r s (execTake s) := by
  rw [execTake]; split
  · exact chained_andThen (take1_micro s) fun t _ => take2_micro t
  · exact take1_micro s

theorem markHeld_micro (s : State) : Micros r s (markHeld s) := by
  rw [markHeld]; split
  · exact own_bare s true
  · exact .refl

theorem execSend_micro (b : Byte) (s : State) : Chained r s (execSend b s) := by
  rw [execSend]; split
  · exact chained_next (((send1_micro b s).trans (pollTimes_micro _ _)).trans (markHeld_micro _))
  · exact chained_next (send1_micro b s)

theorem execReset_micro (hr : r = true) (s : State) : Chained r s (execReset s) := by
  cases h : s.allIdle with
  | true => simp only [execReset, h, if_true]; exact chained_next (Micro.reset s hr h).chain
  | false => simp only [execReset, h]; exact chained_next (Micro.refuse s _).chain

theorem exec_micro (i : Instr) (hr : r = true ∨ i ≠ .reset) (s : State) : Chained r s (exec i s) := by
  cases i with
  | nop => exact chained_next .refl
  | reset => exact execReset_micro (hr.resolve_right fun h => h rfl) s
  | store b => exact execStore_micro b s
  | avail => exact execAvail_micro s
  | take => exact execTake_micro s
  | send b => exact execSend_micro b s

theorem runWord_micro (w : OpWord) (hr : r = true ∨ decode w ≠ .ok .reset) (s : State) :
    Chained r s (runWord w s) := by
  rw [runWord]
  split
  · rename_i i hd
    exact exec_micro i (hr.imp_right fun h he => h (he ▸ hd)) s
  · exact chained_next (Micro.refuse s _).chain

/-! The software. -/

theorem sendRest_micro (rest : List Byte) (s : State) : Micros r s (sendRest rest s) := by
  cases rest with
  | nil => exact own_returnCall s _
  | cons b rest => exact own_soft s _

theorem startCall_micro (c : Call) (s : State) : Micros r s (startCall c s) := by
  cases c <;> first | exact own_soft s _ | exact sendRest_micro _ s

theorem refuseLine_micro (l : LineJob) (s : State) : Micros r s (refuseLine l s) :=
  (own_soft s .idle).trans (Micro.refuse _ _).chain

theorem lineByte_micro (t : Nat) (l : LineJob) (v : Byte) (s : State) : Micros r s (lineByte t l v s) := by
  rw [lineByte]
  split
  · split
    · exact refuseLine_micro l s
    · exact own_returnCall s _
  · split
    · exact own_soft s _
    · split
      · exact refuseLine_micro l s
      · exact own_soft s _

theorem deliverByte_micro (job : ReadJob) (v : Byte) (s : State) : Micros r s (deliverByte job v s) := by
  rw [deliverByte]
  split
  · exact own_returnCall s _
  · exact lineByte_micro _ _ _ s

theorem pollTurn_micro (job : ReadJob) (s : State) : Chained r s (pollTurn job s) := by
  rw [pollTurn]
  split
  · exact chained_next (own_returnCall s _)
  · refine chained_andThen (execAvail_micro s) fun t _ => ?_
    split
    · exact chained_next (own_soft t _)
    split
    · exact chained_next (own_soft t _)
    · split
      · exact chained_next .refl
      · exact chained_next (own_soft t _)

theorem takeTurn_micro (job : ReadJob) (s : State) : Chained r s (takeTurn job s) := by
  rw [takeTurn]
  split
  · exact chained_andThen (take1_micro s) fun t _ => chained_next (own_soft t _)
  · exact chained_andThen (take1_micro s) fun t _ => chained_next (own_soft t _)

theorem advanceTurn_micro (job : ReadJob) (s : State) : Chained r s (advanceTurn job s) := by
  rw [advanceTurn]
  split
  · exact chained_andThen (take2_micro s) fun t _ => chained_next (deliverByte_micro _ _ t)
  · exact chained_next .refl

theorem sendTurn_micro (rest : List Byte) (s : State) : Micros r s (sendTurn rest s) := by
  rw [sendTurn.eq_def]
  split
  · exact own_returnCall s _
  · split
    · exact (send1_micro _ s).trans (own_soft _ _)
    · exact (send1_micro _ s).trans (own_soft _ _)

theorem waitTurn_micro (rest : List Byte) (s : State) : Micros r s (waitTurn rest s) := by
  rw [waitTurn]
  split
  · exact (send2_micro s).trans (sendRest_micro _ _)
  · exact send2_micro s

theorem softTurn_micro (s : State) : Chained r s (softTurn s) := by
  rw [softTurn]
  split
  · exact chained_next .refl
  · exact pollTurn_micro _ s
  · exact takeTurn_micro _ s
  · exact advanceTurn_micro _ s
  · exact chained_next (sendTurn_micro _ s)
  · exact chained_next (waitTurn_micro _ s)

/-! The schedule. -/

/-- The item is no RESET. -/
def noReset (it : Item) : Prop := ∀ w, it = .word w → decode w ≠ .ok .reset

theorem runItem_chain (it : Item) (hr : r = true ∨ noReset it) (s : State) : Chained r s (runItem it s) := by
  cases it with
  | word w => exact runWord_micro w (hr.imp_right fun h => h w rfl) s
  | interrupt b => exact chained_next (store1_micro b s)
  | store1 b => exact chained_next (store1_micro b s)
  | store2 => exact store2_micro s
  | store3 => exact store3_micro s
  | take1 => exact take1_micro s
  | take2 => exact take2_micro s
  | send1 b => exact chained_next (send1_micro b s)
  | send2 => exact chained_next (send2_micro s)
  | syncH => exact chained_next (syncH_micro s)
  | syncT => exact chained_next (syncT_micro s)
  | init => exact chained_next (initBlock_micro s)
  | call c => exact chained_next (startCall_micro c s)
  | soft => exact softTurn_micro s

theorem runItem_micro (it : Item) (s : State) : Chained true s (runItem it s) := runItem_chain it (.inl rfl) s

theorem runItem_micro_noReset {it : Item} (h : noReset it) (s : State) : Chained false s (runItem it s) :=
  runItem_chain it (.inr h) s

/-- What `nextTurn` gives: the poll of a bare SEND, an item of the schedule, or a turn of the free schedule. -/
theorem nextTurn_cases (s : State) :
    (s.bareSend = true ∧ nextTurn s = (some .send2, s)) ∨
    (s.bareSend = false ∧ ∃ it rest, pick s [] s.sched = some (it, rest) ∧ nextTurn s = (some it, { s with sched := rest })) ∨
    (s.bareSend = false ∧ pick s [] s.sched = none ∧ nextTurn s = freeTurn s) := by
  rw [nextTurn]
  cases hb : s.bareSend with
  | true => simp
  | false => cases hp : pick s [] s.sched <;> simp

/-- The next step runs on the same state but for the schedule and the count of free turns. -/
theorem nextTurn_state (s : State) : ∃ l k, (nextTurn s).2 = { s with sched := l, turns := k } := by
  rcases nextTurn_cases s with ⟨_, h⟩ | ⟨_, it, rest, _, h⟩ | ⟨_, _, h⟩ <;> rw [h]
  · exact ⟨s.sched, s.turns, rfl⟩
  · exact ⟨rest, s.turns, rfl⟩
  · exact ⟨s.sched, s.turns + 1, rfl⟩

/-- A step runs what `nextTurn` gives, or nothing. -/
theorem step_cases (s : State) :
    (∃ it, (nextTurn s).1 = some it ∧ step s = runItem it (nextTurn s).2) ∨
    ((nextTurn s).1 = none ∧ step s = .next (nextTurn s).2) := by
  simp only [step, scheduleStep]
  rcases h : nextTurn s with ⟨_ | it, t⟩ <;> simp

/-- What is picked is enabled. -/
theorem pick_enabled {s : State} {w : List Agent} {l rest : List Item} {it : Item} (h : pick s w l = some (it, rest)) :
    enabled s it = true := by
  induction l generalizing w rest with
  | nil => simp [pick] at h
  | cons a l ih =>
    rw [pick] at h
    split at h
    · rename_i hc
      simp only [Option.some.injEq, Prod.mk.injEq] at h
      rw [← h.1]; exact (Bool.and_eq_true _ _ ▸ hc).2
    · cases hp : pick s (itemAgent s a :: w) l with
      | none => simp [hp] at h
      | some p =>
        simp only [hp, Option.map_some, Option.some.injEq, Prod.mk.injEq] at h
        exact ih (rest := p.2) (by rw [hp, ← h.1])

/-- An item's guards read neither the schedule nor the count of free turns. -/
theorem enabled_sched (s : State) (l : List Item) (k : Nat) (it : Item) :
    enabled { s with sched := l, turns := k } it = enabled s it := by
  cases it <;> rfl

/-- What a step runs is enabled, but for the polls of a bare SEND, which nothing holds. -/
theorem nextTurn_enabled {s : State} {it : Item} (h : (nextTurn s).1 = some it) (hb : s.bareSend = false) :
    enabled s it = true := by
  rcases nextTurn_cases s with ⟨h', _⟩ | ⟨_, it', rest, hp, h'⟩ | ⟨_, _, h'⟩
  · rw [hb] at h'; cases h'
  · rw [h'] at h; cases h; exact pick_enabled hp
  · rw [h', freeTurn] at h
    dsimp only at h
    split at h
    · rename_i he; cases h; rw [← he]; exact (enabled_sched s s.sched (s.turns + 1) _).symm
    · cases h

theorem nextTurn_micro (s : State) : Micros r s (nextTurn s).2 := by
  obtain ⟨l, k, h⟩ := nextTurn_state s
  rw [h]; exact (own_sched s l).trans (own_turns _ k)

/-- Every step is a chain of the changes `Micro` lists. -/
theorem step_micro (s : State) : Chained true s (step s) := by
  rcases step_cases s with ⟨it, _, h⟩ | ⟨_, h⟩ <;> rw [h]
  · exact fun t ht => (nextTurn_micro s).trans (runItem_micro it _ t ht)
  · exact chained_next (nextTurn_micro s)

/-- What each change keeps, every step keeps. -/
theorem step_keeps {P : State → Prop} (hP : ∀ s t, P s → Micro true s t → P t) {s t : State} (hs : P s)
    (h : step s = .next t) : P t := by
  have hst : Micros true s t := step_micro s t h
  clear h
  induction hst with
  | refl => exact hs
  | tail _ hm ih => exact hP _ _ ih hm

/-- A relation that holds over each change, and is reflexive and transitive, holds over every step. -/
theorem step_relates {R : State → State → Prop} (hr : ∀ s, R s s) (ht : ∀ s t u, R s t → R t u → R s u)
    (hm : ∀ s t, Micro true s t → R s t) {s t : State} (h : step s = .next t) : R s t := by
  have hst : Micros true s t := step_micro s t h
  clear h
  induction hst with
  | refl => exact hr s
  | tail _ h' ih => exact ht _ _ _ ih (hm _ _ h')

end Sys2Proof.Machine
end

