-- ==== Sys2Proof/Laws/Ops.lean ====
section
/-! SUPPORT. Laws/Ops.lean: what each shared operation can do, said once. -/

namespace Sys2Proof.Machine

theorem andThen_eq_next {o : Out} {f : State → Out} {t : State} :
    andThen o f = .next t ↔ ∃ s, o = .next s ∧ f s = .next t := by
  cases o <;> simp [andThen]

@[simp] theorem andThen_next (s : State) (f : State → Out) : andThen (.next s) f = f s := rfl

/-- A first cause is recorded, a later one is not (R33). -/
theorem orElse_eq_ite {α : Type} [DecidableEq α] (o : Option α) (c : α) :
    (o.orElse fun _ => some c) = if o = none then some c else o := by
  cases o <;> simp

/-- `MemWrite` answers a next state exactly inside `[0, N)`, and writes the one entry. -/
theorem storeEntry_eq_next {i : Nat} {v : Byte} {s t : State} :
    storeEntry i v s = .next t ↔ i < s.cfg.n ∧ t = { s with storage := s.storage.write i v } := by
  unfold storeEntry
  split
  · rename_i h; simp [h, eq_comm]
  · rename_i h; simp [h]

/-- `MemRead` hands on a value exactly inside `[0, N)` and where the entry holds one. -/
theorem loadEntry_eq_next {i : Nat} {s t : State} {k : Byte → Out} :
    loadEntry i s k = .next t ↔ i < s.cfg.n ∧ ∃ v, s.storage.read i = some v ∧ k v = .next t := by
  unfold loadEntry
  split
  · rename_i h
    cases hv : s.storage.read i <;> simp [h]
  · rename_i h; simp [h]

/-- A draw laid down is used first. -/
theorem drawReady_laid {s : State} {r : Bool} {rest : List Bool} (h : s.polls = r :: rest) :
    s.drawReady = (r, { s with polls := rest }) := by simp [State.drawReady, h]

/-- With none laid down the draw is free. -/
theorem drawReady_free {s : State} (h : s.polls = []) :
    s.drawReady = (Config.pcReady s.cfg.ident s.drawn, { s with drawn := s.drawn + 1 }) := by simp [State.drawReady, h]

/-- The schedule's first item is picked when it is enabled. -/
theorem pick_first {s : State} {it : Item} {rest : List Item} (h : enabled s it = true) :
    pick s [] (it :: rest) = some (it, rest) := by simp [pick, h]

/-- With an enabled item first, the step runs it on the state less that item. -/
theorem step_first {s : State} {it : Item} {rest : List Item} (hb : s.bareSend = false) (hs : s.sched = it :: rest)
    (h : enabled s it = true) :
    step s = runItem it { s with sched := rest } := by
  simp [step, scheduleStep, nextTurn, hb, hs, pick_first h]

end Sys2Proof.Machine
end

