-- ==== Sys2Proof/Laws/Frame.lean ====
section
/-! SUPPORT. Laws/Frame.lean: what the micro-steps leave unchanged, and what a software call in progress can rely on. -/

namespace Sys2Proof.Machine

/-- STORE.1 leaves the consumer's and the transmitter's side and the software as they were. -/
theorem store1_frame (b : Byte) (s : State) :
    (store1 b s).soft = s.soft ∧ (store1 b s).cPhase = s.cPhase ∧ (store1 b s).txPhase = s.txPhase ∧
      (store1 b s).bareSend = s.bareSend ∧ (store1 b s).rdLog = s.rdLog ∧ (store1 b s).cfg = s.cfg ∧
      (store1 b s).fault = s.fault := by
  unfold store1
  split
  · simp
  · split <;> simp

/-- STORE.2 does too. -/
theorem store2_frame {s t : State} (h : store2 s = .next t) :
    t.soft = s.soft ∧ t.cPhase = s.cPhase ∧ t.txPhase = s.txPhase ∧ t.bareSend = s.bareSend ∧ t.rdLog = s.rdLog := by
  unfold store2 at h
  split at h
  · unfold storeEntry at h
    split at h
    · simp [andThen] at h; subst h; simp
    · simp [andThen] at h
  · cases h; simp
  · cases h; simp

/-- STORE.3 does too. -/
theorem store3_frame {s t : State} (h : store3 s = .next t) :
    t.soft = s.soft ∧ t.cPhase = s.cPhase ∧ t.txPhase = s.txPhase ∧ t.bareSend = s.bareSend ∧ t.rdLog = s.rdLog := by
  unfold store3 at h
  split at h <;> (cases h; simp)

/-- So does a whole STORE. -/
theorem execStore_frame {b : Byte} {s t : State} (h : execStore b s = .next t) :
    t.soft = s.soft ∧ t.cPhase = s.cPhase ∧ t.txPhase = s.txPhase ∧ t.bareSend = s.bareSend ∧ t.rdLog = s.rdLog := by
  have h1 := store1_frame b s
  unfold execStore at h
  split at h
  · obtain ⟨u, hu, h⟩ := andThen_eq_next.mp h
    have h2 := store2_frame hu
    have h3 := store3_frame h
    simp_all
  · cases h; simp [h1]

/-- TAKE.1 leaves the transmitter's side and the software as they were. -/
theorem take1_frame {s t : State} (h : take1 s = .next t) : t.soft = s.soft ∧ t.bareSend = s.bareSend ∧ t.txPhase = s.txPhase := by
  unfold take1 loadEntry at h
  split at h
  · cases h; simp
  · split at h
    · cases h; simp
    · split at h
      · split at h
        · cases h; simp
        · cases h
      · cases h

/-- TAKE.2 does too, and ends the TAKE. -/
theorem take2_frame {s t : State} (h : take2 s = .next t) :
    t.soft = s.soft ∧ t.bareSend = s.bareSend ∧ t.txPhase = s.txPhase ∧ t.cPhase = .idle := by
  unfold take2 at h
  split at h
  · cases h; simp
  · cases h; simp_all

/-- A poll leaves the FIFO's side and the software as they were: it changes nothing of the SEND, or ends it. -/
theorem send2_frame (s : State) :
    (send2 s).soft = s.soft ∧ (send2 s).cPhase = s.cPhase ∧ (send2 s).pPhase = s.pPhase ∧ (send2 s).cfg = s.cfg ∧
      ((send2 s).bareSend = s.bareSend ∧ (send2 s).txPhase = s.txPhase ∨
        (send2 s).bareSend = false ∧ (send2 s).txPhase = .idle) := by
  unfold send2
  obtain ⟨p, d, hd⟩ := drawReady_own s
  split
  · split <;> simp [hd]
  · simp

/-- Any number of polls does too. -/
theorem pollTimes_frame (k : Nat) (s : State) :
    (pollTimes k s).soft = s.soft ∧ (pollTimes k s).cPhase = s.cPhase ∧ (pollTimes k s).pPhase = s.pPhase ∧
      (pollTimes k s).cfg = s.cfg ∧ ((pollTimes k s).bareSend = s.bareSend ∨ (pollTimes k s).bareSend = false) := by
  induction k generalizing s with
  | zero => simp [pollTimes]
  | succ k ih =>
    have h1 := ih (send2 s); have h2 := send2_frame s
    simp only [pollTimes]
    rcases h2 with ⟨a,b,c,d,e⟩
    rcases h1 with ⟨a',b',c',d',e'⟩
    refine ⟨a'.trans a, b'.trans b, c'.trans c, d'.trans d, ?_⟩
    rcases e with ⟨e, _⟩ | ⟨e, _⟩ <;> rcases e' with e' | e' <;> simp [e, e']

/-- With a call in progress, every item but its own turns leaves what the call relies on, and is no RESET. -/
theorem call_frame {s t : State} {it : Item} (hs : s.soft ≠ .idle) (hi : it ≠ .soft) (he : enabled s it = true)
    (h : runItem it s = .next t) :
    t.soft = s.soft ∧ t.cPhase = s.cPhase ∧ t.txPhase = s.txPhase ∧ t.bareSend = s.bareSend ∧ t.rdLog = s.rdLog ∧
      noReset it := by
  have key : normalContext (itemAgent s it) = false ∨ quietItem it = true := by
    simp only [enabled, waitsForCall, Bool.and_eq_true, Bool.not_eq_true'] at he
    have := he.2
    simp [hs, hi] at this
    by_cases hn : normalContext (itemAgent s it) = true
    · exact .inr (this hn)
    · exact .inl (by simpa using hn)
  have nr : ∀ it, (∀ w, it ≠ .word w) → noReset it := fun it hw w h => absurd h (hw w)
  cases it with
  | word w =>
    simp only [runItem, runWord] at h
    cases hd : decode w with
    | error e =>
      rw [hd] at h; cases e; cases h
      exact ⟨rfl, rfl, rfl, rfl, rfl, fun w' h => by cases h; simp [hd]⟩
    | ok i =>
      rw [hd] at h
      simp only [itemAgent, wordAgent, hd, quietItem] at key
      cases i with
      | nop => cases h; exact ⟨rfl, rfl, rfl, rfl, rfl, fun w' h => by cases h; simp [hd]⟩
      | store b =>
        have := execStore_frame h
        exact ⟨this.1, this.2.1, this.2.2.1, this.2.2.2.1, this.2.2.2.2, fun w' h => by cases h; simp [hd]⟩
      | reset => simp [instrAgent, normalContext] at key
      | avail => simp [instrAgent, normalContext] at key
      | take => simp [instrAgent, normalContext] at key
      | send b => simp [instrAgent, normalContext] at key
  | interrupt b =>
    cases h; have := store1_frame b s
    exact ⟨this.1, this.2.1, this.2.2.1, this.2.2.2.1, this.2.2.2.2.1, nr _ (by simp)⟩
  | store1 b =>
    cases h; have := store1_frame b s
    exact ⟨this.1, this.2.1, this.2.2.1, this.2.2.2.1, this.2.2.2.2.1, nr _ (by simp)⟩
  | store2 => have := store2_frame h; exact ⟨this.1, this.2.1, this.2.2.1, this.2.2.2.1, this.2.2.2.2, nr _ (by simp)⟩
  | store3 => have := store3_frame h; exact ⟨this.1, this.2.1, this.2.2.1, this.2.2.2.1, this.2.2.2.2, nr _ (by simp)⟩
  | syncH =>
    cases h; refine ⟨?_, ?_, ?_, ?_, ?_, nr _ (by simp)⟩ <;> (rw [syncH]; split <;> rfl)
  | syncT =>
    cases h; refine ⟨?_, ?_, ?_, ?_, ?_, nr _ (by simp)⟩ <;> (rw [syncT]; split <;> rfl)
  | soft => exact absurd rfl hi
  | call c => simp [enabled, guardHolds, hs] at he
  | take1 => simp [itemAgent, normalContext, quietItem] at key
  | take2 => simp [itemAgent, normalContext, quietItem] at key
  | send1 b => simp [itemAgent, normalContext, quietItem] at key
  | send2 => simp [itemAgent, normalContext, quietItem] at key
  | init => simp [itemAgent, normalContext, quietItem] at key

end Sys2Proof.Machine
end

