-- ==== Sys2Proof/Laws/PerInstr.lean ====
section
/-! SUPPORT. Laws/PerInstr.lean: one lemma per operation: its word lies in its port's quarter, carries its operand in the
data field, and is well formed (spec/30_encoding.md R90 to R94). -/

namespace Sys2Proof.Laws

/-- The fields of an operation's word are the operation's port, number and operand; every operation is well formed. -/
def WordFields.Statement (i : Instr) : Prop :=
  i.wellFormed = true ∧ portField (encode i) = portCode (instrPort i) ∧ functField (encode i) = instrFunct i ∧
    dataField (encode i) = instrData i

theorem WordFields.nop : WordFields.Statement .nop := by unfold WordFields.Statement; decide

theorem WordFields.reset : WordFields.Statement .reset := by unfold WordFields.Statement; decide

theorem WordFields.avail : WordFields.Statement .avail := by unfold WordFields.Statement; decide

theorem WordFields.take : WordFields.Statement .take := by unfold WordFields.Statement; decide

theorem WordFields.store (b : Byte) : WordFields.Statement (.store b) := by
  simp only [WordFields.Statement]
  revert b
  decide

theorem WordFields.send (b : Byte) : WordFields.Statement (.send b) := by
  simp only [WordFields.Statement]
  revert b
  decide

end Sys2Proof.Laws
end

