-- ==== Sys2Proof/Machine/Ports.lean ====
section
/-! DEFINITION. Machine/Ports.lean: the port signals behind the operations (spec/00_scope.md R12, spec/30_encoding.md R98).
A port event is one micro-step and has no clock. -/

namespace Sys2Proof.Machine

/-- The events on the block's ports (R12, R98). -/
inductive PortEvent
  | wr (data : Byte)       -- WR: `wr_en = 1, wr_data`
  | rdQuery                -- RD: `rd_query = 1`
  | rdEnable               -- RD: `rd_en = 1`
  | rdAvail (bit : Bool)   -- RD: the answer `rd_avail`
  | rdData (v : Byte)      -- RD: the answer `rd_data`
  | txRequest (data : Byte) -- TX: `tx_req = 1, tx_data`
  | txDone                 -- TX: `tx_done = 1`
  | pcWrite (data : Byte)  -- PC: `pc_wr = 1, pc_data`, at a moment when `pc_ready = 1`
  | rst                    -- SYS: `rst = 1`
  deriving DecidableEq, Repr

/-- The three operations of the platform collaborator (spec/60_exceptions.md R198). -/
inductive PlatformCall
  | transmitBlocking (b : Byte)                  -- the PC port
  | onReceiveInterrupt (b : Byte)                -- feeds the WR port
  | configure (baud : Nat) (format : LineFormat) -- the boot duty
  deriving DecidableEq, Repr

/-- What `init` calls, outside the block: `configure` with the rate of R5 and the fixed line format (R199, R214). -/
def initCall (c : Config) : PlatformCall := .configure c.baudRate lineFormat

/-- Issuing an operation, as a port event; NOP is no event on any port (R98). -/
def issueEvent : Instr → Option PortEvent
  | .nop     => none
  | .reset   => some .rst
  | .store b => some (.wr b)
  | .avail   => some .rdQuery
  | .take    => some .rdEnable
  | .send b  => some (.txRequest b)

/-- What a result on RD drives (R98). -/
def resultEvent : RdResult → PortEvent
  | .avail bit => .rdAvail bit
  | .byte v    => .rdData v

/-- The answers the block drove between two states of a run: RD results, and for each byte handed over its `pc_wr` and
the `tx_done` of the same micro-step (R132). STORE has no answer: nothing on WR is observable (R13). -/
def answerEvents (s t : State) : List PortEvent :=
  (t.rdLog.drop s.rdLog.length).map resultEvent
    ++ (t.txLog.drop s.txLog.length).flatMap fun b => [.pcWrite b, .txDone]

end Sys2Proof.Machine
end

