-- ==== Sys2Proof/Tests/Slice0.lean ====
section
/-! SUPPORT. Tests/Slice0.lean: the model against the spec's vectors (spec/95_test_vectors.md), and for each statement of
Certificates/Slice0/Obligations.lean that has hypotheses a state and operands that meet them all. -/

open Sys2Proof Sys2Proof.Machine

/-- An initialised idle block of `n` entries with given cursors and cells. -/
def testBlock (n head tail : Nat) (cells : Memory) : State :=
  { State.powerOn { n := n } with head := head, tail := tail, storage := cells, inited := true }

/-- The same with lagging copies. -/
def testLag (n head tail headRd tailWr : Nat) (cells : Memory) : State :=
  { testBlock n head tail cells with cfg := { n := n, xdLag := true }, headRd := headRd, tailWr := tailWr }

/-- The outcome is a next state with a property. -/
def nextHas (o : Out) (p : State → Bool) : Bool :=
  match o with
  | .next s    => p s
  | .fault _   => false
  | .refused _ => false

/-! ## Encoding: words written out bit by bit (B-E, R94) -/

theorem test_decode_nop : decode 0b000000000000#12 = .ok .nop := by decide
theorem test_decode_reset : decode 0b000100000000#12 = .ok .reset := by decide
theorem test_decode_store : decode 0b010001000001#12 = .ok (.store 0x41) := by decide
theorem test_decode_store_ff : decode 0b010011111111#12 = .ok (.store 0xFF) := by decide
theorem test_decode_avail : decode 0b100000000000#12 = .ok .avail := by decide
theorem test_decode_take : decode 0b100100000000#12 = .ok .take := by decide
theorem test_decode_send : decode 0b110000001101#12 = .ok (.send 0x0D) := by decide
theorem test_decode_send_ff : decode 0b110011111111#12 = .ok (.send 0xFF) := by decide
theorem test_reserved_z_data : decode 0x980#12 = .error (.illegalOp 0x980) := by decide
theorem test_reserved_sys_funct : decode 0x2A5#12 = .error (.illegalOp 0x2A5) := by decide
theorem test_reserved_wr_funct : decode 0x641#12 = .error (.illegalOp 0x641) := by decide
theorem test_reserved_tx_funct : decode 0xD41#12 = .error (.illegalOp 0xD41) := by decide
theorem test_encode_words :
    encode (.store 0x41) = 0x441 ∧ encode (.send 0x0D) = 0xC0D ∧ encode .take = 0x900 ∧ encode .reset = 0x100 := by decide
theorem test_table_word : decodeTableWord 16 0x441 = some (.store 0x41) ∧ decodeTableWord 16 0x1441 = none := by decide

/-! ## Well-formedness: an ill-formed term for each check -/

theorem test_wf_config : Config.wellFormed { n := 2 } = true ∧ Config.wellFormed { n := 1 } = false ∧
    Config.wellFormed { n := 0 } = false ∧ Config.wellFormed { instances := [3, 3], ident := 3 } = false ∧
    Config.wellFormed { instances := [3], ident := 4 } = false := by decide
theorem test_wf_gray : grayDefined { n := 64 } = true ∧ grayDefined { n := 6 } = false ∧ grayDefined { n := 1 } = false := by
  decide
theorem test_wf_polls : wellFormedPolls [false, false, true] = true ∧ wellFormedPolls [] = false ∧
    wellFormedPolls [false] = false ∧ wellFormedPolls [true, true] = false := by decide
theorem test_wf_decimal : Decimal.wellFormed { neg := false, num := 1, den := 0 } = false := by decide
theorem test_wf_instr : ∀ b : Byte, Instr.wellFormed (.store b) = true := by decide
theorem test_wf_memory : Memory.wf [(0, 1), (3, 2)] = true ∧ Memory.wf [(3, 2), (0, 1)] = false ∧
    Memory.wf [(3, 2), (3, 1)] = false := by decide

/-! ## Cursor arithmetic and the Gray view (B-A, B-G) -/

theorem test_inc : inc 8 0 = 1 ∧ inc 8 6 = 7 ∧ inc 8 7 = 0 ∧ inc 64 63 = 0 ∧ inc 2 1 = 0 := by decide
theorem test_dist : dist 8 3 3 = 0 ∧ dist 8 7 0 = 1 ∧ dist 8 0 7 = 7 ∧ dist 8 5 2 = 5 ∧ dist 64 10 9 = 63 := by decide
theorem test_width : cursorWidth { n := 64 } = 6 ∧ cursorWidth { n := 8 } = 3 ∧ cursorWidth { n := 5 } = 3 ∧
    cursorWidth { n := 2 } = 1 := by decide
theorem test_gray : (List.range 8).map (fun c => gray (BitVec.ofNat 3 c)) =
    [0b000, 0b001, 0b011, 0b010, 0b110, 0b111, 0b101, 0b100] ∧ gray 63#6 = 0b100000 ∧ gray 5#6 = 0b000111 := by decide
theorem test_ungray : (List.range 8).map (fun c => ungray (gray (BitVec.ofNat 3 c))) =
    (List.range 8).map (BitVec.ofNat 3) := by decide

/-! ## Instances (R200): each has its own identity, and two blocks may not share one -/

theorem test_copies : Copies.wf (Copies.powerOn { instances := [3, 7], ident := 3 }) = true ∧
    Copies.wf [(3, State.reset)] = false ∧ Copies.wf [(0, State.reset), (0, State.reset)] = false := by decide

/-! ## STORE (B-S3, B-S4) -/

theorem test_store_wraps : nextHas (exec (.store 0x5A) (testBlock 8 7 3 []))
    (fun t => t.storage == [(7, 0x5A)] && t.head == 0 && t.occ == 5 && t.pPhase == .idle) = true := by decide
theorem test_store_full_drops : nextHas (exec (.store 0x99) (testBlock 8 6 7 []))
    (fun t => t.head == 6 && t.storage == [] && t.drops == 1) = true := by decide

/-! ## AVAIL (B-S8, B-S2) and TAKE (B-S6, B-Y3) -/

theorem test_avail_one_byte : nextHas (exec .avail (testBlock 8 0 7 [(7, 1)])) (fun t => t.rdLog == [.avail true]) = true := by
  decide
theorem test_avail_empty : nextHas (exec .avail (testBlock 8 0 0 [])) (fun t => t.rdLog == [.avail false]) = true := by decide
theorem test_take_wraps : nextHas (exec .take (testBlock 8 2 7 [(0, 1), (1, 2), (7, 0x33)]))
    (fun t => t.rdLog == [.byte 0x33] && t.tail == 0 && t.occ == 2) = true := by decide
theorem test_take_empty_faults : nextHas (exec .take (testBlock 8 0 0 []))
    (fun t => t.fault == some (.takeEmpty 0 0) && t.tail == 0 && t.rdLog == []) = true := by decide

/-! ## SEND (B-T2, B-T4), RESET (B-Y1, B-Y4), NOP -/

theorem test_send_third_poll : nextHas (exec (.send 0x48) { testBlock 8 0 0 [] with polls := [false, false, true, true] })
    (fun t => t.txLog == [0x48] && t.txPhase == .idle && t.polls == [true]) = true := by decide
theorem test_send_busy_refused : nextHas (exec (.send 0x32) { testBlock 8 0 0 [] with txPhase := .wait 0x31 })
    (fun t => t.refused == some (.portBusy .tx) && t.txPhase == .wait 0x31) = true := by decide
theorem test_reset_idle : nextHas (exec .reset (testBlock 8 6 2 [(2, 3), (3, 4)]))
    (fun t => t.head == 0 && t.tail == 0 && t.storage == [(2, 3), (3, 4)]) = true := by decide
theorem test_reset_busy : nextHas (exec .reset { testBlock 8 0 0 [] with pPhase := .write 9 })
    (fun t => t.refused == some (.resetBusy (.write 9) .idle .idle) && t.pPhase == .write 9) = true := by decide
theorem test_nop_word : nextHas (step { testBlock 8 3 1 [] with sched := [.word 0x000] })
    (fun t => t == testBlock 8 3 1 []) = true := by decide

/-! ## The schedule, the copies and ATOMIC_ISR -/

theorem test_step_reserved : nextHas (step { testBlock 8 0 0 [] with sched := [.word 0x2A5] })
    (fun t => t.refused == some (.illegalOp 0x2A5)) = true := by decide
theorem test_step_store_before_init : nextHas (step (State.reset.withFetchWord 16 0x441))
    (fun t => t.refused == some (.notInited (.store 0x41)) && t.head == 0) = true := by decide
theorem test_interrupt_held : nextHas (step { testBlock 8 0 0 [(0, 1)] with
      pPhase := .publish, sched := [.interrupt 5, .store3] })
    (fun t => t.sched == [.interrupt 5] && t.head == 1) = true := by decide
theorem test_isr_holds_avail : nextHas (step { testBlock 8 0 0 [] with
      cfg := { n := 8, atomicIsr := true }, pPhase := .write 7, sched := [.word 0x800, .store2] })
    (fun t => t.sched == [.word 0x800] && t.pPhase == .publish) = true := by decide
/-- R9: a bare SEND that is held keeps the next item waiting, and is not refused by it. -/
theorem test_bare_send_holds : nextHas (step { testBlock 8 0 0 [] with
      txPhase := .wait 0x31, bareSend := true, polls := [true], sched := [.word 0xC32] })
    (fun t => t.txLog == [0x31] && t.refused == none && t.bareSend == false && t.sched == [.word 0xC32]) = true := by decide
/-- B-T3, R228: a run that polls for ever is not final, nor is an RDBYTE that waits. -/
theorem test_not_final : ¬ ({ testBlock 8 0 0 [] with txPhase := .wait 0 } : State).final ∧
    ¬ ({ testBlock 8 0 0 [] with soft := .read { timeout := 0, budget := 0, line := none } .poll } : State).final ∧
    (testBlock 8 0 0 []).final := by decide
/-- R211: where a run starts. -/
theorem test_start : ({ State.reset with sched := [.init, .word 0x441], polls := [true] } : State).start ∧
    ¬ ({ State.reset with inited := true } : State).start := by decide
/-- R5, R199: `init` hands the rate and the fixed line format to `configure`. -/
theorem test_init_call : initCall { baudRate := 9600 } = .configure 9600 lineFormat := by decide
/-- R164: a TAKE word waits while an RDBYTE has its AVAIL's 1 in hand. -/
theorem test_take_waits_for_call : nextHas (step { testBlock 8 1 0 [(0, 1)] with
      soft := .read { timeout := 0, budget := 0, line := none } .take, sched := [.word 0x900, .soft] })
    (fun t => t.cPhase == .adv 1 && t.sched == [.word 0x900]) = true := by decide
/-- B-X step 8: the drop although the buffer has room. -/
theorem test_lag_store_drops : nextHas (exec (.store 0x44) (testLag 4 3 1 3 0 [(1, 0x22), (2, 0x33)]))
    (fun t => t.drops == 1 && t.head == 3) = true := by decide
/-- B-X step 2: a byte that is stored but not yet seen. -/
theorem test_lag_avail_zero : nextHas (exec .avail (testLag 4 1 0 0 0 [(0, 0x11)])) (fun t => t.rdLog == [.avail false]) = true := by
  decide

/-! ## The software (V5, V6, B-W2, B-W3, B-R5) -/

theorem test_float_text : floatText { neg := false, num := 54321, den := 1000 } 3 = [0x35, 0x34, 0x2E, 0x33, 0x32, 0x31] ∧
    floatText { neg := true, num := 5, den := 100 } 1 = [0x2D, 0x30, 0x2E, 0x31] ∧
    floatText { neg := false, num := 0, den := 1 } 2 = [0x30, 0x2E, 0x30, 0x30] := by decide
theorem test_binary_text : binaryText 8 0b00001010 = [0x30, 0x30, 0x30, 0x30, 0x31, 0x30, 0x31, 0x30] := by decide
theorem test_bool_and_println : callBytes (.write (.bool true)) = [0x74, 0x72, 0x75, 0x65] ∧
    callBytes (.println (.text [0x6F, 0x6B])) = [0x6F, 0x6B, 0x0D, 0x0A] ∧
    callBytes (.print (.text [0x6F, 0x6B])) = [0x6F, 0x6B, 0x0D] := by decide
theorem test_int_text : intText (-105) = [0x2D, 0x31, 0x30, 0x35] ∧ parseDecimal [0x20, 0x2D, 0x31, 0x30, 0x35] = some (-105) ∧
    parseDecimal [0x31, 0x78] = none := by decide
theorem test_read_line_empty : (lineByte 0 { maxLen := 20, use := .line, buffer := [] } 0x0D (testBlock 8 0 0 [])).softLog =
    [.line .success [0x00]] := by decide
theorem test_port_events : issueEvent (.store 0x41) = some (.wr 0x41) ∧ issueEvent .nop = none := by decide

/-! ## Witnesses: each names the statement whose hypotheses it meets -/

/-- One byte in the buffer. -/
def witnessOne : State := testBlock 4 1 0 [(0, 0x7E)]
/-- A full buffer of 4 entries, the cursors at the wrap. -/
def witnessFull : State := testBlock 4 3 0 [(0, 1), (1, 2), (2, 3)]
/-- STORE.2 is next, at the last index, with a byte to take. -/
def witnessWrite : State := { testBlock 4 3 2 [(2, 9)] with pPhase := .write 0x10 }
/-- STORE.3 is next, at the last index. -/
def witnessPublish : State := { testBlock 4 3 2 [(2, 9), (3, 0x10)] with pPhase := .publish }
/-- TAKE.2 is next, at the last index. -/
def witnessAdvance : State := { testBlock 4 0 3 [(3, 0x21)] with cPhase := .adv 0x21 }
/-- Copies behind both cursors. -/
def witnessLag : State := testLag 4 2 1 1 0 [(0, 1), (1, 2)]

theorem witness_StepRunsDecodedWord :
    let s := { witnessOne with sched := [.word 0x900] }
    s.sched = .word 0x900 :: [] ∧ decode 0x900 = .ok .take ∧ s.bareSend = false ∧ enabled s (.word 0x900) = true := by decide
/-- A TAKE waits for the software's call (R150, R164), a STORE does not. -/
theorem witness_StepRunsDecodedWord_held :
    let s := { witnessOne with soft := .read { timeout := 0, budget := 0, line := none } .take }
    s.bareSend = false ∧ enabled s (.word 0x900) = false ∧ enabled s (.word 0x441) = true := by decide
theorem witness_FetchWordRunsNext : decodeTableWord 16 0xC0D = some (.send 0x0D) ∧ State.reset.bareSend = false ∧
    (State.reset.isrHolds = false ∨ instrAgent (.send 0x0D) = .producer) ∧
    (State.reset.soft = .idle ∨ instrAgent (.send 0x0D) = .producer ∨ Instr.send 0x0D = .nop) := by decide
theorem witness_ReservedWordRefused :
    let s := { witnessOne with sched := [.word 0x0A5] }
    reserved 0x0A5 = true ∧ s.sched = .word 0x0A5 :: [] ∧ s.bareSend = false ∧ s.isrHolds = false := by decide
theorem witness_HeldInterruptWaits_publish :
    let s := { witnessPublish with sched := [.interrupt 5, .store3] }
    s.inited = true ∧ s.bareSend = false ∧ s.pPhase = .publish ∧ s.sched = .interrupt 5 :: .store3 :: [] := by decide
theorem witness_HeldInterruptWaits_write :
    let s := { witnessWrite with sched := [.interrupt 5, .store2, .store3] }
    s.inited = true ∧ s.bareSend = false ∧ s.pPhase = .write 0x10 ∧ s.head < s.cfg.n ∧
      s.sched = .interrupt 5 :: .store2 :: .store3 :: [] := by decide
theorem witness_EmptyScheduleTakesFreeTurn : State.reset.sched = [] ∧ State.reset.bareSend = false := by decide
theorem witness_NopChangesNothing :
    let s := { witnessOne with sched := [.word 0x000] }
    s.sched = .word 0x000 :: [] ∧ s.bareSend = false ∧ s.isrHolds = false := by decide
theorem witness_ResetClearsCursors : witnessFull.pPhase = .idle ∧ witnessFull.cPhase = .idle ∧ witnessFull.txPhase = .idle := by
  decide
theorem witness_ResetBusyRefused : witnessWrite.pPhase ≠ .idle ∨ witnessWrite.cPhase ≠ .idle ∨ witnessWrite.txPhase ≠ .idle := by
  decide
theorem witness_InitHappensOnce_first :
    let s := { State.reset with sched := [.init] }
    s.inited = false ∧ s.sched = .init :: [] ∧ s.bareSend = false ∧ s.isrHolds = false ∧ s.soft = .idle := by decide
theorem witness_InitHappensOnce_second :
    let s := { witnessOne with sched := [.init] }
    s.inited = true ∧ s.sched = .init :: [] ∧ s.bareSend = false ∧ s.isrHolds = false ∧ s.soft = .idle := by decide
theorem witness_BeforeInit :
    let s := { witnessOne with inited := false, head := 2, tail := 2 }
    s.inited = false ∧ s.Inv := by decide
theorem witness_PowerOnValues : Config.wellFormed { n := 2, xdLag := true } = true := by decide
theorem witness_Store1TestsFull_drop : witnessFull.inited = true ∧ witnessFull.pPhase = .idle ∧
    inc witnessFull.cfg.n witnessFull.head = witnessFull.tailP := by decide
theorem witness_Store1TestsFull_latch : witnessOne.inited = true ∧ witnessOne.pPhase = .idle ∧
    inc witnessOne.cfg.n witnessOne.head ≠ witnessOne.tailP := by decide
theorem witness_Store2WritesAtHead : witnessWrite.pPhase = .write 0x10 ∧ witnessWrite.head < witnessWrite.cfg.n := by decide
theorem witness_Store3PublishesHead : witnessPublish.Inv ∧ witnessPublish.pPhase = .publish := by decide
theorem witness_StoreAppendsByte : witnessOne.Inv ∧ witnessOne.inited = true ∧ witnessOne.pPhase = .idle ∧
    inc witnessOne.cfg.n witnessOne.head ≠ witnessOne.tailP := by decide
theorem witness_StoreOnFullDropsNewest : witnessFull.inited = true ∧ witnessFull.pPhase = .idle ∧
    inc witnessFull.cfg.n witnessFull.head = witnessFull.tailP := by decide
theorem witness_StoreFrame_stores : (∃ t, exec (.store 5) witnessOne = .next t) ∧ storeAccepted 5 witnessOne = true :=
  ⟨⟨_, rfl⟩, by decide⟩
theorem witness_StoreFrame_dropped : (∃ t, exec (.store 5) witnessFull = .next t) ∧ storeAccepted 5 witnessFull = false :=
  ⟨⟨_, rfl⟩, by decide⟩
theorem witness_AvailReturnsNonEmpty : witnessOne.cPhase = .idle := by decide
theorem witness_AvailStaysTrueUntilTake :
    let s := { witnessOne with sched := [.word 0x900] }
    s.Inv ∧ (nextTurn s).1 = some (.word 0x900) ∧ Item.word 0x900 ≠ .word 0x100 ∧ s.rdAvail = true ∧
      nextHas (step s) (fun _ => true) = true := by decide
/-- A step that is a poll of a bare SEND. -/
theorem witness_AvailStaysTrueUntilTake_poll :
    let s := { witnessOne with txPhase := TxPhase.wait 1, bareSend := true, polls := [false] }
    s.Inv ∧ (nextTurn s).1 = some .send2 ∧ s.rdAvail = true ∧ nextHas (step s) (fun _ => true) = true := by decide
theorem witness_Take1ReadsTail : witnessOne.Inv ∧ witnessOne.cPhase = .idle ∧ witnessOne.headC ≠ witnessOne.tail := by decide
theorem witness_TakeOnEmptyFaults : State.reset.cPhase = .idle ∧ State.reset.headC = State.reset.tail := by decide
theorem witness_Take2AdvancesTail : witnessAdvance.Inv ∧ witnessAdvance.cPhase = .adv 0x21 ∧
    witnessAdvance.cfg.xdLag = false := by decide
theorem witness_TakeReturnsOldest : witnessFull.Inv ∧ witnessFull.cPhase = .idle ∧ witnessFull.headC ≠ witnessFull.tail := by
  decide
theorem witness_ConsumerFrame : (∃ t, exec .take witnessOne = .next t) ∧ (∃ t, exec .avail witnessOne = .next t) ∧
    witnessOne.cPhase = .idle := ⟨⟨_, rfl⟩, ⟨_, rfl⟩, by decide⟩
theorem witness_BusyPortRefused : (witnessWrite.inited = true ∧ witnessWrite.pPhase ≠ .idle) ∧ witnessAdvance.cPhase ≠ .idle ∧
    (let s := { witnessOne with txPhase := TxPhase.wait 1 }; s.inited = true ∧ s.txPhase ≠ .idle) := by decide
theorem witness_Send1HoldsCaller : witnessOne.inited = true ∧ witnessOne.txPhase = .idle := by decide
theorem witness_Send2HandsOverWhenReady_ready :
    let s := { witnessOne with txPhase := TxPhase.wait 1, polls := [true] }
    s.txPhase = .wait 1 ∧ s.polls = true :: [] := by decide
theorem witness_Send2HandsOverWhenReady_notReady :
    let s := { witnessOne with txPhase := TxPhase.wait 1, polls := [false] }
    s.txPhase = .wait 1 ∧ s.polls = false :: [] := by decide
/-- The two values of the free draw are excluded by nothing: one of the two clauses about it applies. -/
theorem witness_Send2HandsOverWhenReady_free :
    let s := { witnessOne with txPhase := TxPhase.wait 1 }
    s.txPhase = .wait 1 ∧ s.polls = [] ∧ (Config.pcReady s.cfg.ident s.drawn = true ∨ Config.pcReady s.cfg.ident s.drawn = false) :=
  ⟨rfl, rfl, by cases Config.pcReady _ _ <;> simp⟩
theorem witness_SendCompletesWhenReady :
    let s := { witnessOne with polls := [false, true, false] }
    s.inited = true ∧ s.txPhase = .idle ∧ s.polls = List.replicate 1 false ++ true :: [false] := by decide
theorem witness_SendHeldWhileNotReady :
    let s := { witnessOne with polls := [false, false] }
    s.inited = true ∧ s.txPhase = .idle ∧ s.polls = List.replicate 2 false := by decide
theorem witness_SendHeldWhileNotReady_polls :
    let s := { witnessOne with txPhase := TxPhase.wait 1, bareSend := true }
    s.bareSend = true ∧ s.txPhase = .wait 1 ∧ s.polls = [] ∧ s.Inv := by decide
theorem witness_SendFrame_sent : (∃ t, exec (.send 5) witnessOne = .next t) ∧ sendRefusal 5 witnessOne = none :=
  ⟨⟨_, rfl⟩, by decide⟩
theorem witness_SendFrame_refused : (∃ t, exec (.send 5) State.reset = .next t) ∧ sendRefusal 5 State.reset ≠ none :=
  ⟨⟨_, rfl⟩, by decide⟩
theorem witness_FifoIgnoresTransmitUnit : Instr.take = .avail ∨ Instr.take = .take ∨ ∃ b, Instr.take = .store b :=
  .inr (.inl rfl)
theorem witness_SyncMovesCopyByOne : (witnessLag.cfg.xdLag = true ∧ witnessLag.headRd ≠ witnessLag.head) ∧
    (witnessLag.cfg.xdLag = true ∧ witnessLag.tailWr ≠ witnessLag.tail) ∧ witnessOne.cfg.xdLag = false := by decide
theorem witness_ViewsErrOnCarefulSide : witnessLag.Inv ∧ witnessFull.Inv ∧ witnessFull.headC ≠ witnessFull.tail ∧
    inc witnessLag.cfg.n witnessLag.head ≠ witnessLag.tailP :=
  ⟨by decide, by decide, by decide, by decide⟩
theorem witness_SyncReachesHead : witnessLag.Inv ∧ witnessLag.cfg.xdLag = true ∧ witnessLag.headRd ≠ witnessLag.head ∧
    witnessLag.tailWr ≠ witnessLag.tail := by decide
theorem witness_IncIsBijection : 2 ≤ 2 ∧ 0 < 2 - 1 ∧ 1 < 2 := by decide
theorem witness_DistMeasuresForward : 2 ≤ 2 ∧ 1 < 2 ∧ 0 < 2 ∧ 0 ≤ 1 := by decide
theorem witness_GrayStepChangesOneBit : 0 < 1 := by decide
theorem witness_GrayComparatorsAgree : witnessOne.Inv ∧ grayDefined witnessOne.cfg = true := by decide
theorem witness_InvariantAtReset : Config.wellFormed { n := 2 } = true := by decide
theorem witness_StepKeepsInvariant :
    let s := { witnessPublish with sched := [.store3] }
    s.Inv ∧ nextHas (step s) (fun _ => true) = true := by decide
theorem witness_StepNeverStops : witnessWrite.Inv ∧ witnessAdvance.Inv := ⟨by decide, by decide⟩
theorem witness_StepKeepsFifoOrder_take :
    let s := { witnessFull with sched := [.word 0x900] }
    s.Inv ∧ (nextTurn s).1 ≠ some (.word 0x100) ∧ nextHas (step s) (fun t => t.takenBytes == [1]) = true := by decide
theorem witness_StepKeepsFifoOrder_reset :
    let s := { witnessFull with sched := [.word 0x100] }
    s.Inv ∧ (nextTurn s).1 = some (.word 0x100) ∧ s.allIdle = true ∧
      nextHas (step s) (fun t => t.contents == []) = true := by decide
theorem witness_GhostsKeepHistory :
    let s := { witnessOne with fault := some (.takeEmpty 0 0), refused := some .reinit, sched := [.word 0x441] }
    s.fault ≠ none ∧ s.refused ≠ none ∧ s.inited = true ∧ nextHas (step s) (fun _ => true) = true := by decide
theorem witness_SingleWriter : Item.send2 ≠ .word 0x100 ∧ (∃ t, runItem .send2 witnessOne = .next t) ∧
    itemAgent witnessOne .send2 ≠ .producer ∧ itemAgent witnessOne .send2 ≠ .environment ∧
    itemAgent witnessOne .send2 ≠ .consumer ∧ itemAgent witnessOne .send2 ≠ .synchroniser ∧
    itemAgent witnessOne .syncH ≠ .transmitter :=
  ⟨by decide, ⟨_, rfl⟩, by decide, by decide, by decide, by decide, by decide⟩
/-- A turn of a write call is T's, one of a read call is C's (R150). -/
theorem witness_SingleWriter_soft : softAgent (.write [1] true) = .transmitter ∧
    softAgent (.read { timeout := 0, budget := 0, line := none } .poll) = .consumer := by decide
theorem witness_AtomicIsrShutsOutNormalContext :
    let s := { witnessWrite with
      cfg := { n := 4, atomicIsr := true }, sched := [.word 0x900, .word 0x000, .init, .store2] }
    s.Inv ∧ s.cfg.atomicIsr = true ∧ s.pPhase ≠ .idle ∧ (nextTurn s).1 = some .store2 ∧
      nextHas (step s) (fun _ => true) = true := by decide
theorem witness_StoreAndTakeCommute_write : witnessWrite.Inv ∧ witnessWrite.cfg.xdLag = false ∧ witnessWrite.pPhase ≠ .idle ∧
    witnessWrite.headC ≠ witnessWrite.tail := by decide
theorem witness_StoreAndTakeCommute_publish : witnessPublish.Inv ∧ witnessPublish.cfg.xdLag = false ∧
    witnessPublish.pPhase ≠ .idle ∧ witnessPublish.headC ≠ witnessPublish.tail := by decide
theorem witness_StoredBytesComeBackInOrder :
    let s := testBlock 4 2 2 []
    s.Inv ∧ s.cfg.xdLag = false ∧ s.inited = true ∧ s.pPhase = .idle ∧ s.cPhase = .idle ∧ s.head = s.tail ∧
      1 ≤ [1, 2, 3].length ∧ [1, 2, 3].length ≤ s.cfg.usable := by decide
theorem witness_OverflowDropsOnlyTheLast :
    let s := testBlock 4 2 2 []
    s.Inv ∧ s.cfg.xdLag = false ∧ s.inited = true ∧ s.pPhase = .idle ∧ s.head = s.tail ∧
      [1, 2, 3].length = s.cfg.usable := by decide
theorem witness_CopiesShareNothing :
    let c : Copies := [(1, { witnessOne with cfg := { n := 4, ident := 1 }, sched := [.word 0] }),
      (2, { witnessFull with cfg := { n := 4, ident := 2 } })]
    (∃ d, c.stepAt 1 = .next d) ∧ (2 : Nat) ≠ 1 ∧ (c.block 1).isSome = true ∧ c.wf = true :=
  ⟨⟨_, rfl⟩, by decide⟩
theorem witness_ReadByteTimesOutAfterBudget : (2 : Nat) ≠ 0 ∧ State.reset.soft = .idle ∧ State.reset.cPhase = .idle ∧
    State.reset.headC = State.reset.tail := by decide
theorem witness_ReadByteWithoutTimeoutKeepsPolling : State.reset.soft = .idle ∧ State.reset.cPhase = .idle ∧
    State.reset.headC = State.reset.tail := by decide
theorem witness_ReadByteReturnsOldest : witnessOne.Inv ∧ witnessOne.soft = .idle ∧ witnessOne.cPhase = .idle ∧
    witnessOne.headC ≠ witnessOne.tail ∧ (0 = 0 ∨ witnessOne.cfg.ipm ≠ 0) ∧ (2 = 0 ∨ witnessOne.cfg.ipm ≠ 0) := by decide
/-- A call about to take the byte its AVAIL answered for. -/
theorem witness_ReadByteReturnsOldest_turn :
    let s := { witnessOne with soft := .read { timeout := 0, budget := 0, line := none } .take }
    s.Inv ∧ nextHas (softTurn s) (fun t => t.cPhase == .adv 0x7E) = true := by decide
theorem witness_ReadLineTakesByte_ends : ([] : List Byte).length < 1 ∧ 0 ≤ ([] : List Byte).length := by decide
theorem witness_ReadLineTakesByte_skips : ([] : List Byte) = [] := rfl
theorem witness_ReadLineTakesByte_appends : (0x0A : Byte) ≠ 0x0D ∧ ((0x0A : Byte) ≠ 0x0A ∨ [(1 : Byte)] ≠ []) ∧
    [(1 : Byte)].length + 1 < 3 ∧ 2 ≤ [(1 : Byte)].length + 1 := by decide
theorem witness_WriteCallSendsItsBytes :
    let s := { witnessOne with polls := [true, true, false] }
    isWriteCall (.write (.text [0x48, 0x69])) = true ∧ s.inited = true ∧ s.soft = .idle ∧ s.txPhase = .idle ∧
      s.bareSend = false ∧ s.polls = List.replicate (callBytes (.write (.text [0x48, 0x69]))).length true ++ [false] := by decide
theorem witness_BinaryTextIsMsbFirst : 7 < 8 ∧ 0 < 8 := by decide
end

section
/-! PROOFS. What a scheduled word and a turn of the free schedule do (O4, O8). -/

namespace Sys2Proof.Machine

/-! ### What holds a word of the schedule -/

theorem itemAgent_word {w : OpWord} {i : Instr} (h : decode w = .ok i) (s : State) :
    itemAgent s (.word w) = instrAgent i := by simp [itemAgent, wordAgent, h]

theorem quietItem_word {w : OpWord} {i : Instr} (h : decode w = .ok i) : quietItem (.word w) = (i == .nop) := by
  simp [quietItem, h]

theorem runItem_word {w : OpWord} {i : Instr} (h : decode w = .ok i) (s : State) : runItem (.word w) s = exec i s := by
  simp [runItem, runWord, h]

/-- Of the operations only STORE is outside the normal context (R150, R195). -/
theorem normalContext_instrAgent_eq_false_iff (i : Instr) :
    normalContext (instrAgent i) = false ↔ instrAgent i = .producer := by
  cases i <;> simp [normalContext, instrAgent]

theorem enabled_iff (s : State) (it : Item) :
    enabled s it = true ↔ guardHolds s it = true ∧ waitsForStore s it = false ∧ waitsForCall s it = false := by
  simp [enabled, and_assoc]

/-- A STORE that must be contiguous holds everything but P (R188, log 10). -/
theorem waitsForStore_eq_false_iff (s : State) (it : Item) :
    waitsForStore s it = false ↔ s.isrHolds = false ∨ itemAgent s it = .producer := by
  cases hs : s.isrHolds <;> simp [waitsForStore, hs]

/-- A software call holds every word of the normal context but NOP (R141, R150, log 15). -/
theorem waitsForCall_word_eq_false_iff {w : OpWord} {i : Instr} (h : decode w = .ok i) (s : State) :
    waitsForCall s (.word w) = false ↔ s.soft = .idle ∨ instrAgent i = .producer ∨ i = .nop := by
  rw [← normalContext_instrAgent_eq_false_iff]
  by_cases hidle : s.soft = .idle
  · simp [waitsForCall, hidle]
  · cases hn : normalContext (instrAgent i) <;> simp [waitsForCall, itemAgent_word h, quietItem_word h, hidle, hn]

/-- A word has no guard of its own (R184), so only a contiguous STORE and a software call hold it. -/
theorem enabled_word_iff {w : OpWord} {i : Instr} (h : decode w = .ok i) (s : State) :
    enabled s (.word w) = true ↔
      (s.isrHolds = false ∨ instrAgent i = .producer) ∧ (s.soft = .idle ∨ instrAgent i = .producer ∨ i = .nop) := by
  have hguard : guardHolds s (.word w) = true := rfl
  rw [enabled_iff, waitsForStore_eq_false_iff, waitsForCall_word_eq_false_iff h, itemAgent_word h]
  simp only [hguard, true_and]

/-- Settles O4: what holds a word is `enabled_word_iff`, and an enabled first item is what the step runs (`step_first`). -/
theorem stepRunsDecodedWord : Obligations.StepRunsDecodedWord := by
  intro s w i rest hsched hdec hbare
  refine ⟨enabled_word_iff hdec s, fun hen => ?_⟩
  rw [step_first hbare hsched hen, runItem_word hdec]

/-! ### A turn of the free schedule -/

/-- With nothing scheduled and no bare SEND polling on, the turn is the free schedule's. -/
theorem nextTurn_empty {s : State} (hsched : s.sched = []) (hbare : s.bareSend = false) : nextTurn s = freeTurn s := by
  simp [nextTurn, hsched, hbare, pick]

theorem freeTurn_of_enabled {s : State}
    (h : enabled { s with turns := s.turns + 1 } (Config.choice s.cfg.ident s.turns) = true) :
    freeTurn s = (some (Config.choice s.cfg.ident s.turns), { s with turns := s.turns + 1 }) := by simp [freeTurn, h]

theorem freeTurn_of_held {s : State}
    (h : enabled { s with turns := s.turns + 1 } (Config.choice s.cfg.ident s.turns) = false) :
    freeTurn s = (none, { s with turns := s.turns + 1 }) := by simp [freeTurn, h]

theorem step_of_nextTurn_some {s t : State} {it : Item} (h : nextTurn s = (some it, t)) : step s = runItem it t := by
  simp [step, scheduleStep, h]

theorem step_of_nextTurn_none {s t : State} (h : nextTurn s = (none, t)) : step s = .next t := by
  simp [step, scheduleStep, h]

/-- Settles O8: the turn is the free schedule's, and the step runs its choice exactly where nothing holds it. -/
theorem emptyScheduleTakesFreeTurn : Obligations.EmptyScheduleTakesFreeTurn := by
  intro s hsched hbare
  have hturn := nextTurn_empty hsched hbare
  exact ⟨fun hen => step_of_nextTurn_some (hturn.trans (freeTurn_of_enabled hen)),
    fun hheld => step_of_nextTurn_none (hturn.trans (freeTurn_of_held hheld))⟩

end Sys2Proof.Machine
end

section
/-! PROOFS. Each change a step is made of keeps the history of the ghosts (O47). -/

namespace Sys2Proof.Machine

/-! ### The ghosts keep their history (R33) -/

/-- Causes and `inited` stay, `drops` never falls, the logs are only extended, the parameters do not change. -/
def GhostHistory (s t : State) : Prop :=
  (s.fault ≠ none → t.fault = s.fault) ∧ (s.refused ≠ none → t.refused = s.refused) ∧
    (s.inited = true → t.inited = true) ∧ s.drops ≤ t.drops ∧ s.txLog <+: t.txLog ∧ s.rdLog <+: t.rdLog ∧
    s.softLog <+: t.softLog ∧ t.cfg = s.cfg

theorem GhostHistory.refl (s : State) : GhostHistory s s :=
  ⟨fun _ => rfl, fun _ => rfl, id, le_rfl, List.prefix_refl _, List.prefix_refl _, List.prefix_refl _, rfl⟩

theorem GhostHistory.trans {s t u : State} (hst : GhostHistory s t) (htu : GhostHistory t u) : GhostHistory s u := by
  obtain ⟨hf, hr, hi, hd, htx, hrd, hso, hcfg⟩ := hst
  obtain ⟨hf', hr', hi', hd', htx', hrd', hso', hcfg'⟩ := htu
  exact ⟨fun h => (hf' (hf h ▸ h)).trans (hf h), fun h => (hr' (hr h ▸ h)).trans (hr h), hi' ∘ hi, hd.trans hd',
    htx.trans htx', hrd.trans hrd', hso.trans hso', hcfg'.trans hcfg⟩

/-- A recorded cause stays (R33). -/
theorem orElse_of_ne_none {α : Type} {o : Option α} (c : α) (h : o ≠ none) : (o.orElse fun _ => some c) = o := by
  obtain ⟨a, rfl⟩ := Option.ne_none_iff_exists'.mp h
  rfl

theorem Micro.ghostHistory {r : Bool} {s t : State} (h : Micro r s t) : GhostHistory s t := by
  obtain ⟨hf, hr, hi, hd, htx, hrd, hso, hcfg⟩ := GhostHistory.refl s
  cases h with
  | own polls drawn bareSend sched turns soft softLog hlog => exact ⟨hf, hr, hi, hd, htx, hrd, hlog, hcfg⟩
  | fault hc ha => exact ⟨orElse_of_ne_none _, hr, hi, hd, htx, hrd, hso, hcfg⟩
  | refuse c => exact ⟨hf, orElse_of_ne_none _, hi, hd, htx, hrd, hso, hcfg⟩
  | drop => exact ⟨hf, hr, hi, Nat.le_succ _, htx, hrd, hso, hcfg⟩
  | avail hc => exact ⟨hf, hr, hi, hd, htx, List.prefix_append _ _, hso, hcfg⟩
  | takeAdvance v hc => exact ⟨hf, hr, hi, hd, htx, List.prefix_append _ _, hso, hcfg⟩
  | handOver b ht => exact ⟨hf, hr, hi, hd, List.prefix_append _ _, hrd, hso, hcfg⟩
  | init h => exact ⟨hf, hr, fun _ => rfl, hd, htx, hrd, hso, hcfg⟩
  | _ => exact ⟨hf, hr, hi, hd, htx, hrd, hso, hcfg⟩

theorem Micros.ghostHistory {r : Bool} {s t : State} (h : Micros r s t) : GhostHistory s t := by
  induction h with
  | refl => exact .refl s
  | tail _ hm ih => exact ih.trans hm.ghostHistory

/-- What RD returned is only extended. -/
theorem Micros.rdLog_prefix {r : Bool} {s t : State} (h : Micros r s t) : s.rdLog <+: t.rdLog := by
  obtain ⟨-, -, -, -, -, hrd, -, -⟩ := h.ghostHistory
  exact hrd

/-- Settles O47: each change a step is made of keeps the ghosts' history (`Micro.ghostHistory`). -/
theorem ghostsKeepHistory : Obligations.GhostsKeepHistory := fun s t h => Micros.ghostHistory (step_micro s t h)

/-- The parameters do not change (R32). -/
theorem step_cfg {s t : State} (h : step s = .next t) : t.cfg = s.cfg := by
  obtain ⟨-, -, -, -, -, -, -, hcfg⟩ := ghostsKeepHistory s t h
  exact hcfg

end Sys2Proof.Machine
end

section
/-! PROOFS. The cursors: cyclic distances, the views of the two contexts (R73), the entries between the cursors (R26). -/

namespace Sys2Proof.Machine

/-! ### Moving one end of a cyclic distance -/

theorem dist_inc_right {n a b : Nat} (ha : a < n) (hb : b < n) (h : inc n b ≠ a) :
    dist n a (inc n b) = dist n a b + 1 := by
  have hinc := inc_spec hb
  have hd := dist_spec ha hb
  have hd' := dist_spec ha (inc_lt (by omega) b)
  omega

theorem dist_inc_left {n a b : Nat} (ha : a < n) (hb : b < n) (h : a ≠ b) : dist n (inc n a) b + 1 = dist n a b := by
  have hinc := inc_spec ha
  have hd := dist_spec ha hb
  have hd' := dist_spec (inc_lt (by omega) a) hb
  omega

theorem dist_inc_right_le {n a b : Nat} (ha : a < n) (hb : b < n) : dist n a (inc n b) ≤ dist n a b + 1 := by
  by_cases h : inc n b = a
  · have := dist_spec ha ha
    rw [h]; omega
  · exact (dist_inc_right ha hb h).le

/-- Less than a full lap behind, one step on does not close it. -/
theorem inc_ne_of_dist_lt {n a b : Nat} (ha : a < n) (hb : b < n) (h : dist n a b + 1 < n) : inc n b ≠ a := by
  have hinc := inc_spec hb
  have hd := dist_spec ha hb
  omega

theorem dist_eq_zero_iff {n a b : Nat} (ha : a < n) (hb : b < n) : dist n a b = 0 ↔ a = b := by
  have hd := dist_spec ha hb
  omega

theorem dist_same {n a : Nat} (ha : a < n) : dist n a a = 0 := (dist_eq_zero_iff ha ha).mpr rfl

/-- Distances add up within less than one lap. -/
theorem dist_add {n a b c : Nat} (ha : a < n) (hb : b < n) (hc : c < n) (h : dist n a b + dist n b c < n) :
    dist n a c = dist n a b + dist n b c := by
  have hab := dist_spec ha hb
  have hbc := dist_spec hb hc
  have hac := dist_spec ha hc
  omega

theorem inc_injective {n a b : Nat} (ha : a < n) (hb : b < n) (h : inc n a = inc n b) : a = b := by
  have ha' := inc_spec ha
  have hb' := inc_spec hb
  omega

/-! ### The views of the two contexts err on the careful side (R73) -/

theorem State.headC_lt {s : State} (hcur : s.cursorsInRange) : s.headC < s.cfg.n := by
  obtain ⟨hhead, -, hheadRd, -⟩ := hcur
  rw [State.headC]; split <;> assumption

theorem State.tailP_lt {s : State} (hcur : s.cursorsInRange) : s.tailP < s.cfg.n := by
  obtain ⟨-, htail, -, htailWr⟩ := hcur
  rw [State.tailP]; split <;> assumption

/-- With or without lag the cursors stand in the order `tail_p, tail, head_c, head` within less than one lap. -/
theorem State.viewOrder_lt {s : State} (hcur : s.cursorsInRange) (hlag : s.lagOrder) :
    dist s.cfg.n s.tailP s.tail + dist s.cfg.n s.tail s.headC + dist s.cfg.n s.headC s.head < s.cfg.n := by
  obtain ⟨hhead, htail, -, -⟩ := hcur
  cases hx : s.cfg.xdLag with
  | false =>
    have := dist_lt (n := s.cfg.n) (by omega) s.tail s.head
    simp [headC_direct hx, tailP_direct hx, dist_same, hhead, htail, this]
  | true =>
    have := hlag hx
    simp only [headC_lag hx, tailP_lag hx]
    omega

/-- What C sees as not empty is not empty. -/
theorem State.head_ne_tail_of_rdAvail {s : State} (hcur : s.cursorsInRange) (hlag : s.lagOrder) (h : s.rdAvail = true) :
    s.head ≠ s.tail := by
  have horder := s.viewOrder_lt hcur hlag
  have hheadC := s.headC_lt hcur
  have hseen := rdAvail_iff.mp h
  obtain ⟨hhead, htail, -, -⟩ := hcur
  have hadd := dist_add htail hheadC hhead (by omega)
  have hzero := dist_eq_zero_iff htail hheadC
  have hzero' := dist_eq_zero_iff htail hhead
  omega

/-- Where P sees room, one more byte fits between all the views. -/
theorem State.viewOrder_succ_lt {s : State} (hcur : s.cursorsInRange) (hlag : s.lagOrder) (h : s.full = false) :
    dist s.cfg.n s.tailP s.tail + dist s.cfg.n s.tail s.headC + dist s.cfg.n s.headC s.head + 1 < s.cfg.n := by
  have horder := s.viewOrder_lt hcur hlag
  have hheadC := s.headC_lt hcur
  have htailP := s.tailP_lt hcur
  obtain ⟨hhead, htail, -, -⟩ := hcur
  have htoC := dist_add htailP htail hheadC (by omega)
  have htoHead := dist_add htailP hheadC hhead (by omega)
  have hgrow := dist_inc_right htailP hhead (not_full_iff.mp h)
  have hlt := dist_lt (n := s.cfg.n) (by omega) s.tailP (inc s.cfg.n s.head)
  omega

/-- Where P sees room, there is room. -/
theorem State.inc_head_ne_tail_of_not_full {s : State} (hcur : s.cursorsInRange) (hlag : s.lagOrder)
    (h : s.full = false) : inc s.cfg.n s.head ≠ s.tail := by
  have hroom := s.viewOrder_succ_lt hcur hlag h
  have hheadC := s.headC_lt hcur
  obtain ⟨hhead, htail, -, -⟩ := hcur
  have hadd := dist_add htail hheadC hhead (by omega)
  exact inc_ne_of_dist_lt htail hhead (by omega)

/-! ### The contents as the cursors move (R26) -/

theorem State.slot_zero {s : State} (htail : s.tail < s.cfg.n) : s.slot 0 = s.tail := Nat.mod_eq_of_lt htail

/-- The slot one past the contents is `head`. -/
theorem State.slot_occ {s : State} (hhead : s.head < s.cfg.n) (htail : s.tail < s.cfg.n) : s.slot s.occ = s.head := by
  have hslot := slot_spec (s := s) htail (dist_lt (by omega) s.tail s.head)
  have hd := dist_spec htail hhead
  simp only [State.occ]
  omega

/-- No slot of the contents is `head`. -/
theorem State.slot_ne_head {s : State} (hhead : s.head < s.cfg.n) (htail : s.tail < s.cfg.n) {k : Nat} (hk : k < s.occ) :
    s.slot k ≠ s.head := by
  have hlt := dist_lt (n := s.cfg.n) (by omega) s.tail s.head
  have hslot := slot_spec (s := s) (k := k) htail (hk.trans hlt)
  have hd := dist_spec htail hhead
  simp only [State.occ] at hk
  omega

theorem State.contentsWritten_iff {s : State} : s.contentsWritten ↔ ∀ c ∈ s.contents, c.isSome = true := by
  simp [State.contents]

/-- A write at `head` is not seen in the contents (R112). -/
theorem State.contents_writeData {s : State} (hhead : s.head < s.cfg.n) (htail : s.tail < s.cfg.n) (b : Byte)
    (p : PPhase) : { s with storage := s.storage.write s.head b, pPhase := p }.contents = s.contents :=
  List.map_congr_left fun _ hk =>
    Memory.read_write_other _ b (s.slot_ne_head hhead htail (List.mem_range.mp hk))

/-- STORE.3 makes the entry at `head` the last of the contents (R113). -/
theorem State.contents_publish {s : State} (hhead : s.head < s.cfg.n) (htail : s.tail < s.cfg.n)
    (hroom : inc s.cfg.n s.head ≠ s.tail) (p : PPhase) :
    { s with head := s.succ s.head, pPhase := p }.contents = s.contents ++ [s.storage.read s.head] := by
  have hocc : { s with head := s.succ s.head, pPhase := p }.occ = s.occ + 1 := dist_inc_right htail hhead hroom
  rw [State.contents, hocc, List.range_succ, List.map_append, List.map_singleton, ← s.slot_occ hhead htail]
  rfl

/-- TAKE.2 takes the entry at `tail` off the front of the contents (R117). -/
theorem State.contents_takeAdvance {s : State} (hhead : s.head < s.cfg.n) (htail : s.tail < s.cfg.n)
    (hne : s.head ≠ s.tail) (c : CPhase) :
    s.contents = s.storage.read s.tail :: { s with tail := s.succ s.tail, cPhase := c }.contents := by
  have hocc : { s with tail := s.succ s.tail, cPhase := c }.occ + 1 = s.occ := dist_inc_left htail hhead hne.symm
  have hslot : ∀ k, s.slot (k + 1) = { s with tail := s.succ s.tail, cPhase := c }.slot k := by
    intro k
    simp only [State.slot, State.succ, inc, Nat.mod_add_mod]
    congr 1; omega
  rw [State.contents, ← hocc, List.range_succ_eq_map, List.map_cons, s.slot_zero htail, List.map_map]
  exact congrArg _ (List.map_congr_left fun k _ => congrArg _ (hslot k))

end Sys2Proof.Machine
end

section
/-! PROOFS. Each change a step is made of keeps the invariant of the block, and what C saw as not empty (O44). -/

namespace Sys2Proof.Machine

/-! ### Each change keeps the invariant of the block -/

theorem State.takePending_iff {s : State} :
    s.takePending = true ↔ ∀ v, s.cPhase = .adv v → s.rdAvail = true ∧ s.storage.read s.tail = some v := by
  cases hc : s.cPhase <;> simp [State.takePending, hc]

theorem Memory.isSome_read_write {m : Memory} {a : Nat} (i : Nat) (v : Byte) (h : (m.read a).isSome = true) :
    ((m.write i v).read a).isSome = true := by
  by_cases hai : a = i
  · simp [hai]
  · rwa [Memory.read_write_other m v hai]

/-- What C sees as not empty stays so when STORE.3 moves `head`. -/
theorem State.rdAvail_publish {s : State} (hne : inc s.cfg.n s.head ≠ s.tail) (h : s.rdAvail = true) (p : PPhase) :
    { s with head := s.succ s.head, pPhase := p }.rdAvail = true := by
  rw [rdAvail_iff] at h ⊢
  cases hx : s.cfg.xdLag with
  | false => simpa [State.headC, hx, State.succ] using hne
  | true => simpa [State.headC, hx] using h

/-- A copy that lags behind `head` does not lap `tail`. -/
theorem State.rdAvail_syncH {s : State} (hcur : s.cursorsInRange) (hlag : s.lagOrder) (hg : syncHEnabled s = true) :
    { s with headRd := s.succ s.headRd }.rdAvail = true := by
  obtain ⟨hx, hne⟩ : s.cfg.xdLag = true ∧ s.headRd ≠ s.head := by simpa [syncHEnabled] using hg
  obtain ⟨hhead, htail, hheadRd, htailWr⟩ := hcur
  have horder := hlag hx
  have hzero := dist_eq_zero_iff hheadRd hhead
  have hkeep : inc s.cfg.n s.headRd ≠ s.tail := inc_ne_of_dist_lt htail hheadRd (by omega)
  simpa [State.rdAvail, State.headC, hx, State.succ] using hkeep

/-- STORE.1 on a buffer with room, after `init`. -/
theorem State.blockInv_latch {s : State} (h : s.blockInv) (b : Byte) (hi : s.inited = true) (hf : s.full = false) :
    { s with pPhase := .write b }.blockInv := by
  obtain ⟨hcfg, hcur, hsto, hlag, hcon, -, htake, -, hempty⟩ := h
  exact ⟨hcfg, hcur, hsto, hlag, hcon, ⟨fun _ => hf, nofun⟩, htake, fun _ => hi, hempty⟩

/-- STORE.2: the entry at `head` is none of the contents, so a TAKE in progress keeps its byte. -/
theorem State.blockInv_writeData {s : State} (h : s.blockInv) {b : Byte} (hp : s.pPhase = .write b) :
    { s with storage := s.storage.write s.head b, pPhase := .publish }.blockInv := by
  obtain ⟨hcfg, hcur, ⟨hwf, hbelow⟩, hlag, hcon, ⟨hroom, -⟩, htake, hbusy, hempty⟩ := h
  have hbusyP : s.pPhase ≠ .idle := by simp [hp]
  refine ⟨hcfg, hcur, ⟨Memory.wf_write _ _ hwf, Memory.below_write b hcur.1 hbelow⟩, hlag, ?_,
    ⟨fun _ => hroom hbusyP, fun _ => ?_⟩, ?_, fun _ => hbusy (.inl hbusyP), hempty⟩
  · exact fun k hk => Memory.isSome_read_write _ _ (hcon k hk)
  · simp
  · refine takePending_iff.mpr fun v hc => ?_
    obtain ⟨havail, hread⟩ := takePending_iff.mp htake v hc
    have hne := s.head_ne_tail_of_rdAvail hcur hlag havail
    exact ⟨havail, (Memory.read_write_other _ b hne.symm).trans hread⟩

/-- STORE.3: the room STORE.1 found is still there. -/
theorem State.blockInv_publish {s : State} (h : s.blockInv) (hp : s.pPhase = .publish) :
    { s with head := s.succ s.head, pPhase := .idle }.blockInv := by
  obtain ⟨hcfg, hcur, hsto, hlag, hcon, ⟨hroom, hwritten⟩, htake, hbusy, hempty⟩ := h
  have hbusyP : s.pPhase ≠ .idle := by simp [hp]
  have hinit : s.inited = true := hbusy (.inl hbusyP)
  have hfits := s.viewOrder_succ_lt hcur hlag (hroom hbusyP)
  have hne := s.inc_head_ne_tail_of_not_full hcur hlag (hroom hbusyP)
  obtain ⟨hhead, htail, hheadRd, htailWr⟩ := hcur
  have hn : 0 < s.cfg.n := by omega
  refine ⟨hcfg, ⟨inc_lt hn _, htail, hheadRd, htailWr⟩, hsto, fun hx => ?_, ?_, ⟨nofun, nofun⟩, ?_,
    fun _ => hinit, fun hi => ?_⟩
  · have hgrow := dist_inc_right_le hheadRd hhead
    rw [tailP_lag (s := s) hx, headC_lag (s := s) hx] at hfits
    have horder : dist s.cfg.n s.tailWr s.tail + dist s.cfg.n s.tail s.headRd +
        dist s.cfg.n s.headRd (inc s.cfg.n s.head) ≤ s.cfg.n - 1 := by omega
    exact horder
  · rw [contentsWritten_iff, contents_publish hhead htail hne]
    have hold := contentsWritten_iff.mp hcon
    simpa [or_imp, forall_and, hwritten hp] using hold
  · refine takePending_iff.mpr fun v hc => ?_
    obtain ⟨havail, hread⟩ := takePending_iff.mp htake v hc
    exact ⟨State.rdAvail_publish hne havail .idle, hread⟩
  · cases hinit.symm.trans hi

/-- TAKE.1: the byte is that of the entry at `tail`. -/
theorem State.blockInv_takeRead {s : State} (h : s.blockInv) {v : Byte} (ha : s.rdAvail = true)
    (hv : s.storage.read s.tail = some v) : { s with cPhase := .adv v }.blockInv := by
  obtain ⟨hcfg, hcur, hsto, hlag, hcon, hstore, -, hbusy, hempty⟩ := h
  refine ⟨hcfg, hcur, hsto, hlag, hcon, hstore, takePending_iff.mpr fun w hw => ?_, hbusy, hempty⟩
  cases hw
  exact ⟨ha, hv⟩

/-- TAKE.2: the entry it leaves behind is not `head`, so a STORE in progress keeps its room. -/
theorem State.blockInv_takeAdvance {s : State} (h : s.blockInv) {v : Byte} (hc : s.cPhase = .adv v) :
    { s with tail := s.succ s.tail, cPhase := .idle }.blockInv := by
  obtain ⟨hcfg, hcur, hsto, hlag, hcon, ⟨hroom, hwritten⟩, htake, hbusy, hempty⟩ := h
  obtain ⟨havail, -⟩ := takePending_iff.mp htake v hc
  have hne := s.head_ne_tail_of_rdAvail hcur hlag havail
  obtain ⟨hhead, htail, hheadRd, htailWr⟩ := hcur
  have hn : 0 < s.cfg.n := by omega
  refine ⟨hcfg, ⟨hhead, inc_lt hn _, hheadRd, htailWr⟩, hsto, fun hx => ?_, ?_, ⟨fun hp => ?_, hwritten⟩, ?_,
    hbusy, fun hi => absurd (hempty hi) hne⟩
  · have horder := hlag hx
    have hseen : s.headRd ≠ s.tail := headC_lag hx ▸ rdAvail_iff.mp havail
    have hgrow := dist_inc_right_le htailWr htail
    have hshrink := dist_inc_left htail hheadRd hseen.symm
    have horder' : dist s.cfg.n s.tailWr (inc s.cfg.n s.tail) + dist s.cfg.n (inc s.cfg.n s.tail) s.headRd +
        dist s.cfg.n s.headRd s.head ≤ s.cfg.n - 1 := by omega
    exact horder'
  · rw [contentsWritten_iff, contents_takeAdvance hhead htail hne .idle] at hcon
    exact contentsWritten_iff.mpr fun c hc => hcon c (List.mem_cons_of_mem _ hc)
  · have hfull := not_full_iff.mp (hroom hp)
    refine not_full_iff.mpr ?_
    cases hx : s.cfg.xdLag with
    | false => simpa [State.tailP, hx, State.succ] using fun heq => hne (inc_injective hhead htail heq)
    | true => simpa [State.tailP, hx] using hfull
  · rfl

/-- SYNC.H: the copy does not lap `tail`, so what C saw as not empty it still does. -/
theorem State.blockInv_syncH {s : State} (h : s.blockInv) (hg : syncHEnabled s = true) :
    { s with headRd := s.succ s.headRd }.blockInv := by
  obtain ⟨hcfg, hcur, hsto, hlag, hcon, hstore, htake, hbusy, hempty⟩ := h
  have havail := State.rdAvail_syncH hcur hlag hg
  obtain ⟨hx, hne⟩ : s.cfg.xdLag = true ∧ s.headRd ≠ s.head := by simpa [syncHEnabled] using hg
  have horder := hlag hx
  obtain ⟨hhead, htail, hheadRd, htailWr⟩ := hcur
  have hn : 0 < s.cfg.n := by omega
  have hgrow := dist_inc_right_le htail hheadRd
  have hshrink := dist_inc_left hheadRd hhead hne
  refine ⟨hcfg, ⟨hhead, htail, inc_lt hn _, htailWr⟩, hsto, fun _ => ?_, hcon, hstore, ?_, hbusy, hempty⟩
  · have horder' : dist s.cfg.n s.tailWr s.tail + dist s.cfg.n s.tail (inc s.cfg.n s.headRd) +
        dist s.cfg.n (inc s.cfg.n s.headRd) s.head ≤ s.cfg.n - 1 := by omega
    exact horder'
  · exact takePending_iff.mpr fun v hc => ⟨havail, (takePending_iff.mp htake v hc).2⟩

/-- SYNC.T: the copy does not overtake `tail`, so a STORE in progress keeps its room. -/
theorem State.blockInv_syncT {s : State} (h : s.blockInv) (hg : syncTEnabled s = true) :
    { s with tailWr := s.succ s.tailWr }.blockInv := by
  obtain ⟨hcfg, hcur, hsto, hlag, hcon, ⟨-, hwritten⟩, htake, hbusy, hempty⟩ := h
  obtain ⟨hx, hne⟩ : s.cfg.xdLag = true ∧ s.tailWr ≠ s.tail := by simpa [syncTEnabled] using hg
  have horder := hlag hx
  obtain ⟨hhead, htail, hheadRd, htailWr⟩ := hcur
  have hn : 0 < s.cfg.n := by omega
  have hshrink := dist_inc_left htailWr htail hne
  refine ⟨hcfg, ⟨hhead, htail, hheadRd, inc_lt hn _⟩, hsto, fun _ => ?_, hcon, ⟨fun hp => ?_, hwritten⟩, htake,
    hbusy, hempty⟩
  · have horder' : dist s.cfg.n (inc s.cfg.n s.tailWr) s.tail + dist s.cfg.n s.tail s.headRd +
        dist s.cfg.n s.headRd s.head ≤ s.cfg.n - 1 := by omega
    exact horder'
  · have htoRd := dist_add htailWr htail hheadRd (by omega)
    have htoHead := dist_add htailWr hheadRd hhead (by omega)
    have hzero := dist_eq_zero_iff htailWr hhead
    have hne' : inc s.cfg.n s.head ≠ inc s.cfg.n s.tailWr := fun heq => by
      have := inc_injective hhead htailWr heq
      omega
    exact not_full_iff.mpr (by simpa [State.tailP, hx, State.succ] using hne')

/-- RESET with every sequencer idle: the cursors meet at 0. -/
theorem State.blockInv_resetCursors {s : State} (h : s.blockInv) : (resetCursors s).blockInv := by
  obtain ⟨hcfg, ⟨hhead, htail, hheadRd, htailWr⟩, hsto, -⟩ := h
  have hn : 0 < s.cfg.n := by omega
  have hzero : dist s.cfg.n 0 0 = 0 := dist_same hn
  refine ⟨hcfg, ⟨hn, hn, ?_, ?_⟩, hsto, fun hx => ?_, fun k hk => ?_, ⟨nofun, nofun⟩, rfl, ?_, fun _ => rfl⟩
  · simp only [resetCursors_headRd, resetCursors_cfg]; split <;> assumption
  · simp only [resetCursors_tailWr, resetCursors_cfg]; split <;> assumption
  · rw [resetCursors_cfg] at hx
    simp [hx, hzero]
  · exact absurd hk (by simp [State.occ, hzero])
  · simp

/-- Every change keeps the invariant of the block. -/
theorem Micro.blockInv {r : Bool} {s t : State} (h : Micro r s t) (hs : s.blockInv) : t.blockInv := by
  cases h with
  | own => exact hs
  | fault => exact hs
  | refuse => exact hs
  | avail => exact hs
  | drop hi hp hf =>
    rw [← hp]
    exact hs
  | latch b hi hp hf => exact s.blockInv_latch hs b hi hf
  | writeData b hp hh => exact s.blockInv_writeData hs hp
  | publish hp => exact s.blockInv_publish hs hp
  | takeRead v hc ha ht hv => exact s.blockInv_takeRead hs ha hv
  | takeAdvance v hc => exact s.blockInv_takeAdvance hs hc
  | sendLatch b hi ht =>
    obtain ⟨hcfg, hcur, hsto, hlag, hcon, hstore, htake, -, hempty⟩ := hs
    exact ⟨hcfg, hcur, hsto, hlag, hcon, hstore, htake, fun _ => hi, hempty⟩
  | handOver b ht =>
    obtain ⟨hcfg, hcur, hsto, hlag, hcon, hstore, htake, hbusy, hempty⟩ := hs
    exact ⟨hcfg, hcur, hsto, hlag, hcon, hstore, htake, fun _ => hbusy (.inr (by simp [ht])), hempty⟩
  | syncH hg => exact s.blockInv_syncH hs hg
  | syncT hg => exact s.blockInv_syncT hs hg
  | reset hr hidle => exact s.blockInv_resetCursors hs
  | init hi =>
    obtain ⟨hcfg, hcur, hsto, hlag, hcon, hstore, htake, -, -⟩ := hs
    exact ⟨hcfg, hcur, hsto, hlag, hcon, hstore, htake, fun _ => rfl, nofun⟩

theorem Micros.blockInv {r : Bool} {s t : State} (h : Micros r s t) (hs : s.blockInv) : t.blockInv := by
  induction h with
  | refl => exact hs
  | tail _ hm ih => exact hm.blockInv ih

/-! ### Once AVAIL has answered 1 (R114) -/

theorem State.takenBytes_prefix {s t : State} (h : s.rdLog <+: t.rdLog) : s.takenBytes <+: t.takenBytes :=
  h.filterMap _

/-- Of the changes other than RESET's only TAKE.2 can make C see an empty buffer again. -/
theorem Micro.rdAvail_or_taken {s t : State} (h : Micro false s t) (hs : s.blockInv) (ha : s.rdAvail = true) :
    t.rdAvail = true ∨ s.takenBytes.length < t.takenBytes.length := by
  obtain ⟨-, hcur, -, hlag, -, ⟨hroom, -⟩, -⟩ := hs
  cases h with
  | publish hp =>
    exact .inl (State.rdAvail_publish (s.inc_head_ne_tail_of_not_full hcur hlag (hroom (by simp [hp]))) ha .idle)
  | syncH hg => exact .inl (State.rdAvail_syncH hcur hlag hg)
  | takeAdvance v hc => exact .inr (by simp [State.takenBytes])
  | reset hr => cases hr
  | _ => exact .inl ha

theorem Micros.rdAvail_or_taken {s t : State} (h : Micros false s t) (hs : s.blockInv) (ha : s.rdAvail = true) :
    t.rdAvail = true ∨ s.takenBytes.length < t.takenBytes.length := by
  induction h with
  | refl => exact .inl ha
  | tail hsu hm ih =>
    have hsu' := (State.takenBytes_prefix (Micros.rdLog_prefix hsu)).length_le
    have hut := (State.takenBytes_prefix hm.chain.rdLog_prefix).length_le
    rcases ih with hau | hlt
    · exact (hm.rdAvail_or_taken (Micros.blockInv hsu hs) hau).imp_right fun hlt => by omega
    · exact .inr (by omega)

/-- With nothing returned on RD, what C saw as not empty it still does. -/
theorem Micros.rdAvail_of_rdLog_eq {s t : State} (h : Micros false s t) (hs : s.blockInv) (hlog : t.rdLog = s.rdLog)
    (ha : s.rdAvail = true) : t.rdAvail = true :=
  (h.rdAvail_or_taken hs ha).resolve_right (by simp [State.takenBytes, hlog])

end Sys2Proof.Machine
end

section
/-! PROOFS. What the operations of P, C and T do, case by case, and what STORE, AVAIL and TAKE leave unchanged (O20, O27). -/

namespace Sys2Proof.Machine

/-! ### What the operations of C, P and T do, case by case -/

theorem storeAccepted_iff {b : Byte} {s : State} :
    storeAccepted b s = true ↔ s.inited = true ∧ s.pPhase = .idle ∧ s.full = false := by
  simp [storeAccepted, storeRefusal_none, and_assoc]

theorem store1_of_accepted {b : Byte} {s : State} (h : storeAccepted b s = true) :
    store1 b s = { s with pPhase := .write b } := by
  obtain ⟨hi, hp, hf⟩ := storeAccepted_iff.mp h
  simp [store1, storeRefusal_none.mpr ⟨hi, hp⟩, hf]

/-- A STORE.1 that is not accepted is refused, or drops the byte. -/
theorem store1_of_not_accepted {b : Byte} {s : State} (h : storeAccepted b s = false) :
    (∃ c, store1 b s = s.refuse c) ∨ store1 b s = { s with drops := s.drops + 1 } := by
  cases hr : storeRefusal b s with
  | some c => exact .inl ⟨c, by simp [store1, hr]⟩
  | none =>
    have hp := (storeRefusal_none.mp hr).2
    have hf : s.full = true := by simpa [storeAccepted, hr] using h
    right
    simp only [store1, hr, hf, if_true]
    rw [← hp]

theorem execStore_of_not_accepted {b : Byte} {s : State} (h : storeAccepted b s = false) :
    execStore b s = .next (store1 b s) := by simp [execStore, h]

/-- An accepted STORE writes its byte at `head` and moves `head` (R111 to R113). -/
theorem execStore_of_accepted {b : Byte} {s t : State} (h : storeAccepted b s = true) (ht : execStore b s = .next t) :
    t = { s with storage := s.storage.write s.head b, head := s.succ s.head } := by
  obtain ⟨-, hp, -⟩ := storeAccepted_iff.mp h
  rw [execStore, if_pos h, store1_of_accepted h] at ht
  obtain ⟨u, hu, ht⟩ := andThen_eq_next.mp ht
  obtain ⟨u', hu', hu⟩ := andThen_eq_next.mp hu
  obtain ⟨-, rfl⟩ := storeEntry_eq_next.mp hu'
  cases hu
  cases ht
  rw [← hp]
  rfl

/-- A STORE is refused, dropped, or completes. -/
theorem execStore_cases {b : Byte} {s t : State} (h : execStore b s = .next t) :
    (storeAccepted b s = false ∧ ((∃ c, t = s.refuse c) ∨ t = { s with drops := s.drops + 1 })) ∨
    (storeAccepted b s = true ∧ t = { s with storage := s.storage.write s.head b, head := s.succ s.head }) := by
  cases hacc : storeAccepted b s with
  | true => exact .inr ⟨rfl, execStore_of_accepted hacc h⟩
  | false =>
    rw [execStore_of_not_accepted hacc] at h
    cases h
    exact .inl ⟨rfl, store1_of_not_accepted hacc⟩

/-- AVAIL changes the observation, or is refused (R114, R182). -/
theorem execAvail_cases {s t : State} (h : execAvail s = .next t) :
    (s.cPhase ≠ .idle ∧ t = s.refuse (.portBusy .rd)) ∨ (s.cPhase = .idle ∧ t = s.returnRd (.avail s.rdAvail)) := by
  by_cases hc : s.cPhase = .idle
  · exact .inr ⟨hc, by simpa [execAvail, hc] using h.symm⟩
  · exact .inl ⟨hc, by simpa [execAvail, hc] using h.symm⟩

/-- TAKE.1 is refused, faults on an empty buffer, or latches the byte at `tail` (R115, R116, R182). -/
theorem take1_cases {s t : State} (h : take1 s = .next t) :
    (s.cPhase ≠ .idle ∧ t = s.refuse (.portBusy .rd)) ∨
    (s.cPhase = .idle ∧ s.rdAvail = false ∧ t = s.raiseFault (.takeEmpty s.head s.tail)) ∨
    (s.cPhase = .idle ∧ s.rdAvail = true ∧
      ∃ v, s.storage.read s.tail = some v ∧ t = { s with cPhase := .adv v }) := by
  by_cases hc : s.cPhase = .idle
  · right
    cases ha : s.rdAvail with
    | false => exact .inl ⟨hc, rfl, by simpa [take1, hc, ha] using h.symm⟩
    | true =>
      have hload : loadEntry s.tail s (fun v => .next { s with cPhase := .adv v }) = .next t := by
        simpa [take1, hc, ha] using h
      obtain ⟨-, v, hv, ht⟩ := loadEntry_eq_next.mp hload
      exact .inr ⟨hc, rfl, v, hv, by cases ht; rfl⟩
  · exact .inl ⟨hc, by simpa [take1, hc] using h.symm⟩

theorem takeAccepted_iff {s : State} : takeAccepted s = true ↔ s.cPhase = .idle ∧ s.rdAvail = true := by
  simp [takeAccepted]

theorem take1_of_accepted {s t : State} (h : takeAccepted s = true) (ht : take1 s = .next t) :
    ∃ v, s.storage.read s.tail = some v ∧ t = { s with cPhase := .adv v } := by
  obtain ⟨hc, ha⟩ := takeAccepted_iff.mp h
  rcases take1_cases ht with ⟨hc', -⟩ | ⟨-, ha', -⟩ | ⟨-, -, hv⟩
  · exact absurd hc hc'
  · cases ha.symm.trans ha'
  · exact hv

theorem take2_of_adv {s : State} {v : Byte} (h : s.cPhase = .adv v) :
    take2 s = .next ({ s with tail := s.succ s.tail, cPhase := .idle }.returnRd (.byte v)) := by simp [take2, h]

/-- TAKE is refused, faults on an empty buffer, or returns the byte at `tail` and moves `tail` (R115 to R117). -/
theorem execTake_cases {s t : State} (h : execTake s = .next t) :
    (s.cPhase ≠ .idle ∧ t = s.refuse (.portBusy .rd)) ∨
    (s.cPhase = .idle ∧ s.rdAvail = false ∧ t = s.raiseFault (.takeEmpty s.head s.tail)) ∨
    (s.cPhase = .idle ∧ s.rdAvail = true ∧
      ∃ v, s.storage.read s.tail = some v ∧ t = { s with tail := s.succ s.tail }.returnRd (.byte v)) := by
  rw [execTake] at h
  split at h
  · rename_i hacc
    obtain ⟨hc, ha⟩ := takeAccepted_iff.mp hacc
    obtain ⟨u, hu, ht⟩ := andThen_eq_next.mp h
    obtain ⟨v, hv, rfl⟩ := take1_of_accepted hacc hu
    refine .inr (.inr ⟨hc, ha, v, hv, ?_⟩)
    rw [take2_of_adv rfl] at ht
    cases ht
    rw [← hc]
    rfl
  · rename_i hacc
    rcases take1_cases h with hbusy | hempty | ⟨hc, ha, -⟩
    · exact .inl hbusy
    · exact .inr (.inl hempty)
    · exact absurd (takeAccepted_iff.mpr ⟨hc, ha⟩) hacc

theorem send1_of_accepted {b : Byte} {s : State} (h : sendRefusal b s = none) :
    send1 b s = { s with txPhase := .wait b } := by simp [send1, h]

theorem send1_of_refused {b : Byte} {s : State} {c : RefusalCause} (h : sendRefusal b s = some c) :
    send1 b s = s.refuse c := by simp [send1, h]

/-! ### The frames of STORE, AVAIL and TAKE (R37) -/

/-- Settles O20: a STORE that is not accepted changes `refused` or `drops` only, one that is accepted the entry at `head` and
`head`. -/
theorem storeFrame : Obligations.StoreFrame := by
  intro s t b h
  rcases execStore_cases h with ⟨hacc, ⟨c, rfl⟩ | rfl⟩ | ⟨hacc, rfl⟩
  · simp [hacc]
  · simp [hacc]
  · have hother : ∀ a, a ≠ s.head → (s.storage.write s.head b).read a = s.storage.read a :=
      fun a => Memory.read_write_other _ b
    simpa [hacc] using hother

/-- Settles O27: AVAIL and TAKE are refused, or change the observation, `fault` and `tail` only. -/
theorem consumerFrame : Obligations.ConsumerFrame := by
  rintro s t i (rfl | rfl) h
  · rcases execAvail_cases h with ⟨hc, rfl⟩ | ⟨-, rfl⟩
    · simp [hc]
    · simp
  · rcases execTake_cases h with ⟨hc, rfl⟩ | ⟨-, -, rfl⟩ | ⟨-, -, v, -, rfl⟩
    · simp [hc]
    · simp
    · simp

end Sys2Proof.Machine
end

section
/-! PROOFS. Every step keeps the software call and the bare SEND in step with their ports, and so the invariant (O44). -/

namespace Sys2Proof.Machine

/-! ### The turns of a software call -/

/-- The call in progress is in step with its ports, and no bare SEND polls on. -/
def State.callSound (s : State) : Prop := s.softPending = true ∧ s.bareSend = false

theorem State.callSound_of_idle {s : State} (hs : s.soft = .idle) (hb : s.bareSend = false) : s.callSound :=
  ⟨by simp [State.softPending, hs], hb⟩

/-- A call between two of its operations: the ports are free. -/
theorem State.callSound_of_poll {s : State} {job : ReadJob} (hs : s.soft = .read job .poll) (hc : s.cPhase = .idle)
    (ht : s.txPhase = .idle) (hb : s.bareSend = false) : s.callSound :=
  ⟨by simp [State.softPending, hs, hc, ht], hb⟩

/-- A call whose AVAIL answered 1, and still would. -/
theorem State.callSound_of_take {s : State} {job : ReadJob} (hs : s.soft = .read job .take) (hc : s.cPhase = .idle)
    (ht : s.txPhase = .idle) (ha : s.rdAvail = true) (hb : s.bareSend = false) : s.callSound :=
  ⟨by simp [State.softPending, hs, hc, ht, ha], hb⟩

theorem sendRest_callSound (rest : List Byte) {s : State} (hc : s.cPhase = .idle) (ht : s.txPhase = .idle)
    (hb : s.bareSend = false) : (sendRest rest s).callSound := by
  cases rest with
  | nil => exact State.callSound_of_idle rfl hb
  | cons b rest => exact ⟨by simp [sendRest, State.softPending, hc, ht], hb⟩

theorem startCall_callSound (c : Call) {s : State} (hc : s.cPhase = .idle) (ht : s.txPhase = .idle)
    (hb : s.bareSend = false) : (startCall c s).callSound := by
  cases c with
  | rdByte | rdLine | rdVal | rdFlt => exact State.callSound_of_poll rfl hc ht hb
  | _ => exact sendRest_callSound _ hc ht hb

theorem lineByte_callSound (timeout : Nat) (l : LineJob) (v : Byte) {s : State} (hc : s.cPhase = .idle)
    (ht : s.txPhase = .idle) (hb : s.bareSend = false) : (lineByte timeout l v s).callSound := by
  rw [lineByte]
  split
  · split
    · exact State.callSound_of_idle rfl hb
    · exact State.callSound_of_idle rfl hb
  · split
    · exact State.callSound_of_poll rfl hc ht hb
    · split
      · exact State.callSound_of_idle rfl hb
      · exact State.callSound_of_poll rfl hc ht hb

theorem deliverByte_callSound (job : ReadJob) (v : Byte) {s : State} (hc : s.cPhase = .idle)
    (ht : s.txPhase = .idle) (hb : s.bareSend = false) : (deliverByte job v s).callSound := by
  rw [deliverByte]
  split
  · exact State.callSound_of_idle rfl hb
  · exact lineByte_callSound _ _ v hc ht hb

theorem pollTurn_callSound {job : ReadJob} {s t : State} (hs : s.soft = .read job .poll) (h : s.callSound)
    (hturn : pollTurn job s = .next t) : t.callSound := by
  obtain ⟨hsoft, hb⟩ := h
  obtain ⟨hc, ht⟩ : s.cPhase = .idle ∧ s.txPhase = .idle := by simpa [State.softPending, hs] using hsoft
  rw [pollTurn] at hturn
  split at hturn
  · cases hturn
    exact State.callSound_of_idle rfl hb
  · obtain ⟨u, hu, hturn⟩ := andThen_eq_next.mp hturn
    rcases execAvail_cases hu with ⟨hc', -⟩ | ⟨-, rfl⟩
    · exact absurd hc hc'
    rw [if_neg (not_not_intro hc)] at hturn
    split at hturn
    · rename_i ha
      cases hturn
      exact State.callSound_of_take rfl hc ht ha hb
    · split at hturn
      · cases hturn
        exact State.callSound_of_poll hs hc ht hb
      · cases hturn
        exact State.callSound_of_poll rfl hc ht hb

theorem takeTurn_callSound {job : ReadJob} {s t : State} (hs : s.soft = .read job .take) (h : s.callSound)
    (hturn : takeTurn job s = .next t) : t.callSound := by
  obtain ⟨hsoft, hb⟩ := h
  obtain ⟨⟨hc, ht⟩, ha⟩ : (s.cPhase = .idle ∧ s.txPhase = .idle) ∧ s.rdAvail = true := by
    simpa [State.softPending, hs] using hsoft
  have hacc := takeAccepted_iff.mpr ⟨hc, ha⟩
  rw [takeTurn, if_pos hacc] at hturn
  obtain ⟨u, hu, hturn⟩ := andThen_eq_next.mp hturn
  obtain ⟨v, -, rfl⟩ := take1_of_accepted hacc hu
  cases hturn
  exact ⟨by simp [State.softPending, ht], hb⟩

theorem advanceTurn_callSound {job : ReadJob} {s t : State} (hs : s.soft = .read job .advance) (h : s.callSound)
    (hturn : advanceTurn job s = .next t) : t.callSound := by
  obtain ⟨hsoft, hb⟩ := h
  obtain ⟨-, ht⟩ : s.cPhase ≠ .idle ∧ s.txPhase = .idle := by simpa [State.softPending, hs] using hsoft
  rw [advanceTurn] at hturn
  split at hturn
  · rename_i v hv
    rw [take2_of_adv hv, andThen_next] at hturn
    cases hturn
    exact deliverByte_callSound job v rfl ht hb
  · cases hturn
    exact ⟨hsoft, hb⟩

theorem sendTurn_callSound {rest : List Byte} {s : State} (hs : s.soft = .write rest false) (h : s.callSound) :
    (sendTurn rest s).callSound := by
  obtain ⟨hsoft, hb⟩ := h
  cases rest with
  | nil => exact State.callSound_of_idle rfl hb
  | cons b rest =>
    obtain ⟨hc, -⟩ : s.cPhase = .idle ∧ s.txPhase = .idle := by simpa [State.softPending, hs] using hsoft
    rw [sendTurn]
    cases hr : sendRefusal b s with
    | none =>
      rw [send1_of_accepted hr]
      exact ⟨by simp [State.softPending, hc], hb⟩
    | some c =>
      rw [send1_of_refused hr]
      exact State.callSound_of_idle rfl hb

theorem waitTurn_callSound {rest : List Byte} {s : State} (hs : s.soft = .write rest true) (h : s.callSound) :
    (waitTurn rest s).callSound := by
  obtain ⟨hsoft, hb⟩ := h
  obtain ⟨hsoft', hc', -, -, hsend⟩ := send2_frame s
  have hb' : (send2 s).bareSend = false := by rcases hsend with ⟨h, -⟩ | ⟨h, -⟩ <;> simp [h, hb]
  cases rest with
  | nil => simp [State.softPending, hs] at hsoft
  | cons b rest =>
    obtain ⟨hc, ht⟩ : s.cPhase = .idle ∧ s.txPhase = .wait b := by simpa [State.softPending, hs] using hsoft
    rw [waitTurn]
    split
    · exact sendRest_callSound _ (hc'.trans hc) ‹_› hb'
    · have ht' : (send2 s).txPhase = s.txPhase := by
        rcases hsend with ⟨-, h⟩ | ⟨-, h⟩
        · exact h
        · exact absurd h ‹_›
      exact ⟨by simp [State.softPending, hsoft', hs, hc', hc, ht', ht], hb'⟩

/-- A turn of the software leaves its call in step with the ports. -/
theorem softTurn_callSound {s t : State} (h : s.callSound) (hturn : softTurn s = .next t) : t.callSound := by
  rw [softTurn] at hturn
  split at hturn
  · cases hturn; exact h
  · exact pollTurn_callSound ‹_› h hturn
  · exact takeTurn_callSound ‹_› h hturn
  · exact advanceTurn_callSound ‹_› h hturn
  · cases hturn; exact sendTurn_callSound ‹_› h
  · cases hturn; exact waitTurn_callSound ‹_› h

/-! ### Items that start no software call and are no turn of one -/

/-- Only a SEND whose caller is held marks a bare SEND; no operation starts or ends a software call. -/
theorem exec_soft_bareSend {i : Instr} {s t : State} (h : exec i s = .next t) :
    t.soft = s.soft ∧ (t.bareSend = true →
      s.bareSend = true ∨ (∃ b, i = .send b) ∧ t.txBusy = true ∧ t.isrHolds = s.isrHolds) := by
  cases i with
  | nop => cases h; exact ⟨rfl, .inl⟩
  | reset =>
    rw [exec, execReset] at h
    split at h <;> (cases h; exact ⟨rfl, .inl⟩)
  | store b =>
    rcases execStore_cases h with ⟨-, ⟨c, rfl⟩ | rfl⟩ | ⟨-, rfl⟩ <;> exact ⟨rfl, .inl⟩
  | avail =>
    rcases execAvail_cases h with ⟨-, rfl⟩ | ⟨-, rfl⟩ <;> exact ⟨rfl, .inl⟩
  | take =>
    rcases execTake_cases h with ⟨-, rfl⟩ | ⟨-, -, rfl⟩ | ⟨-, -, v, -, rfl⟩ <;> exact ⟨rfl, .inl⟩
  | send b =>
    rw [exec, execSend] at h
    cases hr : sendRefusal b s with
    | some c =>
      rw [hr, send1_of_refused hr] at h
      cases h
      exact ⟨rfl, .inl⟩
    | none =>
      rw [hr, send1_of_accepted hr] at h
      cases h
      obtain ⟨hsoft, -, hp, hcfg, hbare⟩ := pollTimes_frame s.polls.length { s with txPhase := .wait b }
      rw [markHeld]
      split
      · rename_i hbusy
        exact ⟨hsoft, fun _ => .inr ⟨⟨b, rfl⟩, hbusy, by simp only [State.isrHolds, hp, hcfg]⟩⟩
      · refine ⟨hsoft, fun h => .inl ?_⟩
        rcases hbare with hbare | hbare
        · exact hbare.symm.trans h
        · cases hbare.symm.trans h

/-- With no call in progress and no bare SEND, an enabled item that starts no call leaves no call in progress, and a bare
SEND only with its caller held and no contiguous STORE. -/
theorem runItem_sendPending {it : Item} {s t : State} (hsoft : s.soft = .idle) (hb : s.bareSend = false)
    (hen : enabled s it = true) (hcall : ∀ c, it ≠ .call c) (h : runItem it s = .next t) :
    t.soft = .idle ∧ t.sendPending := by
  suffices hkey : t.soft = s.soft ∧ (t.bareSend = false ∨ t.txBusy = true ∧ t.isrHolds = false) by
    obtain ⟨hs, hbare⟩ := hkey
    refine ⟨hs.trans hsoft, fun hb' => ?_⟩
    rcases hbare with hbare | ⟨hbusy, hisr⟩
    · cases hbare.symm.trans hb'
    · exact ⟨hbusy, hisr, hs.trans hsoft⟩
  cases it with
  | word w =>
    cases hd : decode w with
    | error e =>
      cases e
      simp only [runItem, runWord, hd, Host.Outcome.next.injEq] at h
      cases h
      exact ⟨rfl, .inl hb⟩
    | ok i =>
      rw [runItem_word hd] at h
      obtain ⟨hs, hbare⟩ := exec_soft_bareSend h
      refine ⟨hs, ?_⟩
      cases hb' : t.bareSend with
      | false => exact .inl rfl
      | true =>
        rcases hbare hb' with hsb | ⟨⟨b, rfl⟩, hbusy, hisr⟩
        · cases hb.symm.trans hsb
        · have hfree := ((enabled_word_iff hd s).mp hen).1.resolve_right (by simp [instrAgent])
          exact .inr ⟨hbusy, hisr.trans hfree⟩
  | interrupt b | store1 b =>
    cases h
    obtain ⟨hs, -, -, hbare, -⟩ := store1_frame b s
    exact ⟨hs, .inl (hbare.trans hb)⟩
  | store2 =>
    obtain ⟨hs, -, -, hbare, -⟩ := store2_frame h
    exact ⟨hs, .inl (hbare.trans hb)⟩
  | store3 =>
    obtain ⟨hs, -, -, hbare, -⟩ := store3_frame h
    exact ⟨hs, .inl (hbare.trans hb)⟩
  | take1 =>
    obtain ⟨hs, hbare, -⟩ := take1_frame h
    exact ⟨hs, .inl (hbare.trans hb)⟩
  | take2 =>
    obtain ⟨hs, hbare, -⟩ := take2_frame h
    exact ⟨hs, .inl (hbare.trans hb)⟩
  | send1 b =>
    cases h
    rw [send1]
    split <;> exact ⟨rfl, .inl hb⟩
  | send2 =>
    cases h
    obtain ⟨hs, -, -, -, ⟨hbare, -⟩ | ⟨hbare, -⟩⟩ := send2_frame s
    · exact ⟨hs, .inl (hbare.trans hb)⟩
    · exact ⟨hs, .inl hbare⟩
  | syncH =>
    cases h
    rw [syncH]
    split <;> exact ⟨rfl, .inl hb⟩
  | syncT =>
    cases h
    rw [syncT]
    split <;> exact ⟨rfl, .inl hb⟩
  | init =>
    cases h
    rw [initBlock]
    split <;> exact ⟨rfl, .inl hb⟩
  | call c => exact absurd rfl (hcall c)
  | soft =>
    simp [enabled, guardHolds, softReady, hsoft] at hen

/-! ### The step -/

/-- What the call in progress relies on, kept: `softPending` reads the call, the phases of C and T, and C's view. -/
theorem State.softPending_congr {s t : State} (hsoft : t.soft = s.soft) (hc : t.cPhase = s.cPhase)
    (ht : t.txPhase = s.txPhase) (ha : s.rdAvail = true → t.rdAvail = true) (h : s.softPending = true) :
    t.softPending = true := by
  unfold State.softPending at h ⊢
  rw [hsoft, hc, ht]
  split at h
  · rfl
  · exact h
  · simp only [Bool.and_eq_true] at h ⊢
    exact ⟨h.1, ha h.2⟩
  · exact h
  · exact h
  · exact h
  · exact h

/-- An enabled item, outside a bare SEND, leaves the normal context sound. -/
theorem runItem_normalContext {it : Item} {s t : State} (hs : s.blockInv) (hsoft : s.softPending = true)
    (hb : s.bareSend = false) (hen : enabled s it = true) (h : runItem it s = .next t) :
    t.softPending = true ∧ t.sendPending := by
  have hdone : t.callSound → t.softPending = true ∧ t.sendPending := fun ⟨hp, hb'⟩ =>
    ⟨hp, fun hb'' => by cases hb'.symm.trans hb''⟩
  by_cases hturn : it = .soft
  · subst hturn
    exact hdone (softTurn_callSound ⟨hsoft, hb⟩ h)
  by_cases hidle : s.soft = .idle
  · by_cases hcall : ∃ c, it = .call c
    · obtain ⟨c, rfl⟩ := hcall
      have hguard := ((enabled_iff s _).mp hen).1
      simp only [guardHolds, Bool.and_eq_true, beq_iff_eq] at hguard
      cases h
      exact hdone (startCall_callSound c hguard.1.2 hguard.2 hb)
    · obtain ⟨ht, hsend⟩ := runItem_sendPending hidle hb hen (fun c hc => hcall ⟨c, hc⟩) h
      exact ⟨by simp [State.softPending, ht], hsend⟩
  · obtain ⟨ht, hc, htx, hbare, hlog, hnr⟩ := call_frame hidle hturn hen h
    have havail := (runItem_micro_noReset hnr s t h).rdAvail_of_rdLog_eq hs hlog
    exact hdone ⟨State.softPending_congr ht hc htx havail hsoft, hbare.trans hb⟩

/-- A poll of a bare SEND keeps it sound: it holds its caller still, or is over. -/
theorem send2_sendPending {s : State} (h : s.sendPending) (hb : s.bareSend = true) :
    (send2 s).softPending = true ∧ (send2 s).sendPending := by
  obtain ⟨hbusy, hisr, hidle⟩ := h hb
  obtain ⟨hsoft, -, hp, hcfg, hsend⟩ := send2_frame s
  refine ⟨by simp [State.softPending, hsoft, hidle], fun hb' => ?_⟩
  rcases hsend with ⟨-, htx⟩ | ⟨hb'', -⟩
  · refine ⟨?_, ?_, hsoft.trans hidle⟩
    · rwa [State.txBusy, htx]
    · rwa [State.isrHolds, hp, hcfg]
  · cases hb''.symm.trans hb'

/-- The schedule and the count of free turns are no part of the invariant. -/
theorem State.inv_nextTurn {s : State} (h : s.Inv) : (nextTurn s).2.Inv := by
  obtain ⟨l, k, ht⟩ := nextTurn_state s
  rw [ht]
  exact h

/-- What a step runs keeps the normal context sound. -/
theorem step_normalContext {s t : State} (h : s.Inv) (hstep : step s = .next t) :
    t.softPending = true ∧ t.sendPending := by
  rcases step_cases s with ⟨it, hit, hrun⟩ | ⟨-, hrun⟩
  · rw [hrun] at hstep
    cases hb : s.bareSend with
    | true =>
      have hturn : nextTurn s = (some .send2, s) := by simp [nextTurn, hb]
      rw [hturn] at hit hstep
      cases hit
      cases hstep
      obtain ⟨-, -, hsend⟩ := h
      exact send2_sendPending hsend hb
    | false =>
      have hen := nextTurn_enabled hit hb
      obtain ⟨hblock, hsoft, -⟩ := s.inv_nextTurn h
      obtain ⟨l, k, ht⟩ := nextTurn_state s
      rw [ht] at hstep hblock hsoft
      rw [← enabled_sched s l k] at hen
      exact runItem_normalContext hblock hsoft hb hen hstep
  · rw [hrun] at hstep
    cases hstep
    exact (s.inv_nextTurn h).2

/-- Settles O44: each change a step is made of keeps the invariant of the block (`Micro.blockInv`), and what the schedule
admits keeps the normal context in step with its ports (`step_normalContext`). -/
theorem stepKeepsInvariant : Obligations.StepKeepsInvariant := by
  intro s t h hstep
  exact ⟨Micros.blockInv (step_micro s t hstep) h.1, step_normalContext h hstep⟩

end Sys2Proof.Machine
end

section
/-! PROOFS. Every step keeps FIFO order (O46). -/

namespace Sys2Proof.Machine

/-! ### FIFO order over a chain of changes (R26) -/

/-- Bytes left the contents of `s` at the front, in order, as RD returned them, and entered at the back. -/
def FifoOrder (s t : State) : Prop :=
  ∃ appended taken : List Byte, t.takenBytes = s.takenBytes ++ taken ∧
    s.contents ++ appended.map some = taken.map some ++ t.contents

theorem FifoOrder.refl (s : State) : FifoOrder s s := ⟨[], [], by simp, by simp⟩

theorem FifoOrder.of_eq {s t : State} (hcontents : t.contents = s.contents) (htaken : t.takenBytes = s.takenBytes) :
    FifoOrder s t := ⟨[], [], by simp [htaken], by simp [hcontents]⟩

theorem FifoOrder.trans {s t u : State} (hst : FifoOrder s t) (htu : FifoOrder t u) : FifoOrder s u := by
  obtain ⟨app, taken, ht, hc⟩ := hst
  obtain ⟨app', taken', ht', hc'⟩ := htu
  refine ⟨app ++ app', taken ++ taken', by rw [ht', ht, List.append_assoc], ?_⟩
  calc s.contents ++ (app ++ app').map some
      = (s.contents ++ app.map some) ++ app'.map some := by rw [List.map_append, List.append_assoc]
    _ = taken.map some ++ (t.contents ++ app'.map some) := by rw [hc, List.append_assoc]
    _ = (taken ++ taken').map some ++ u.contents := by rw [hc', List.map_append, List.append_assoc]

/-- STORE.3 appends the byte STORE.2 wrote, TAKE.2 returns the first, and no other change but RESET's touches the contents. -/
theorem Micro.fifoOrder {s t : State} (h : Micro false s t) (hs : s.blockInv) : FifoOrder s t := by
  obtain ⟨-, hcur, -, hlag, -, ⟨hroom, hwritten⟩, htake, -⟩ := hs
  cases h with
  | writeData b hp hh => exact .of_eq (State.contents_writeData hh hcur.2.1 b .publish) rfl
  | publish hp =>
    obtain ⟨b, hb⟩ := Option.isSome_iff_exists.mp (hwritten hp)
    have hne := s.inc_head_ne_tail_of_not_full hcur hlag (hroom (by simp [hp]))
    refine ⟨[b], [], (List.append_nil _).symm, ?_⟩
    rw [State.contents_publish hcur.1 hcur.2.1 hne, hb]
    rfl
  | takeAdvance v hc =>
    obtain ⟨havail, hv⟩ := State.takePending_iff.mp htake v hc
    have hne := s.head_ne_tail_of_rdAvail hcur hlag havail
    refine ⟨[], [v], by simp [State.takenBytes], ?_⟩
    rw [State.contents_takeAdvance hcur.1 hcur.2.1 hne .idle, hv, List.map_nil, List.append_nil]
    rfl
  | avail hc => exact .of_eq rfl (by simp [State.takenBytes])
  | reset hr => cases hr
  | _ => exact .of_eq rfl rfl

theorem Micros.fifoOrder {s t : State} (h : Micros false s t) (hs : s.blockInv) : FifoOrder s t := by
  induction h with
  | refl => exact .refl s
  | tail hsu hm ih => exact ih.trans (hm.fifoOrder (Micros.blockInv hsu hs))

/-! ### Which steps make RESET's change -/

/-- RESET has one word (R94). -/
theorem eq_of_decode_reset {w : OpWord} (h : decode w = .ok .reset) : w = 0x100 := by
  rw [decode] at h
  split at h
  · rename_i row hrow
    have hselects := List.find?_some hrow
    have hmem := List.mem_of_find?_eq_some hrow
    simp only [opcodeRows, List.mem_cons, List.not_mem_nil, or_false] at hmem
    rcases hmem with rfl | rfl | rfl | rfl | rfl | rfl
    case inr.inl =>
      have hmask : w &&& 0xFFF#12 = 0x100#12 := by simpa [rowSelects] using hselects
      rwa [show 0xFFF#12 = BitVec.allOnes 12 from rfl, BitVec.and_allOnes] at hmask
    all_goals cases h
  · cases h

theorem noReset_of_ne {it : Item} (h : it ≠ .word 0x100) : noReset it := by
  rintro w rfl hd
  exact h (congrArg Item.word (eq_of_decode_reset hd))

theorem runItem_reset (s : State) : runItem (.word 0x100) s = execReset s := runItem_word (i := .reset) (by decide) s

/-- A RESET that is refused is no RESET's change (R143). -/
theorem runItem_reset_of_busy {s : State} (h : s.allIdle = false) : Chained false s (runItem (.word 0x100) s) := by
  rw [runItem_reset, execReset, h]
  exact chained_next (Micro.refuse s _).chain

theorem runItem_reset_of_idle {s : State} (h : s.allIdle = true) :
    runItem (.word 0x100) s = .next (resetCursors s) := by
  rw [runItem_reset, execReset, if_pos h]

theorem nextTurn_allIdle (s : State) : (nextTurn s).2.allIdle = s.allIdle := by
  obtain ⟨l, k, hst⟩ := nextTurn_state s
  rw [hst]
  rfl

/-- A step makes RESET's change only where it runs the word RESET on an idle block. -/
theorem step_micro_noReset {s : State} (h : ¬((nextTurn s).1 = some (.word 0x100) ∧ s.allIdle = true)) :
    Chained false s (step s) := by
  rcases step_cases s with ⟨it, hit, hrun⟩ | ⟨-, hrun⟩ <;> rw [hrun]
  · intro t ht
    refine (nextTurn_micro s).trans ?_
    by_cases hreset : it = .word 0x100
    · subst hreset
      have hbusy : s.allIdle = false := by simpa [hit] using h
      exact runItem_reset_of_busy (nextTurn_allIdle s ▸ hbusy) t ht
    · exact runItem_micro_noReset (noReset_of_ne hreset) _ t ht
  · exact chained_next (nextTurn_micro s)

theorem step_reset {s : State} (hit : (nextTurn s).1 = some (.word 0x100)) (hidle : s.allIdle = true) :
    step s = .next (resetCursors (nextTurn s).2) := by
  rcases step_cases s with ⟨it, hit', hrun⟩ | ⟨hnone, -⟩
  · cases hit'.symm.trans hit
    rw [hrun, runItem_reset_of_idle ((nextTurn_allIdle s).trans hidle)]
  · cases hnone.symm.trans hit

theorem resetCursors_contents (s : State) : (resetCursors s).contents = [] := by
  simp [State.contents, State.occ, dist]

/-- Settles O46: every step but that of an admitted RESET is a chain of changes that each keep FIFO order. -/
theorem stepKeepsFifoOrder : Obligations.StepKeepsFifoOrder := by
  intro s t h hstep
  refine ⟨fun hno => Micros.fifoOrder (step_micro_noReset hno t hstep) h.1, fun hit hidle => ?_⟩
  rw [step_reset hit hidle] at hstep
  cases hstep
  obtain ⟨l, k, hst⟩ := nextTurn_state s
  rw [hst]
  exact ⟨resetCursors_contents _, rfl⟩

end Sys2Proof.Machine
end

section
/-! PROOFS. The blocks of several peripherals, and what the power-on RESET leaves (O53, O14, O43). -/

namespace Sys2Proof.Machine

/-! ### The blocks of several peripherals (R36, R200) -/

theorem Copies.block_put_same {c : Copies} {id : Nat} {s : State} (t : State) (h : c.block id = some s) :
    (c.put id t).block id = some t := by
  induction c with
  | nil => cases h
  | cons p rest ih =>
    obtain ⟨j, u⟩ := p
    by_cases hj : j = id
    · simp [Copies.put, Copies.block, hj]
    · simp only [Copies.block, if_neg hj] at h
      simp only [Copies.put, if_neg hj, Copies.block]
      exact ih h

theorem Copies.block_put_other (c : Copies) {id other : Nat} (t : State) (h : other ≠ id) :
    (c.put id t).block other = c.block other := by
  induction c with
  | nil => rfl
  | cons p rest ih =>
    obtain ⟨j, u⟩ := p
    by_cases hj : j = id
    · have hother : j ≠ other := fun he => h (he.symm.trans hj)
      simp only [Copies.put, if_pos hj, Copies.block, if_neg hother]
    · simp only [Copies.put, if_neg hj, Copies.block, ih]

theorem Copies.put_ids (c : Copies) (id : Nat) (t : State) : (c.put id t).map (·.1) = c.map (·.1) := by
  induction c with
  | nil => rfl
  | cons p rest ih =>
    obtain ⟨j, u⟩ := p
    by_cases hj : j = id
    · simp [Copies.put, hj]
    · simp [Copies.put, hj, ih]

theorem Copies.wf_cons {j : Nat} {s : State} {rest : Copies} :
    Copies.wf ((j, s) :: rest) = true ↔ s.cfg.ident = j ∧ j ∉ rest.map (·.1) ∧ rest.wf = true := by
  simp [Copies.wf, and_assoc]

/-- A block replaced by one of the same identity keeps the identities distinct and the blocks' own. -/
theorem Copies.wf_put {c : Copies} {id : Nat} {s t : State} (hs : c.block id = some s)
    (ht : t.cfg.ident = s.cfg.ident) (h : c.wf = true) : (c.put id t).wf = true := by
  induction c with
  | nil => rfl
  | cons p rest ih =>
    obtain ⟨j, u⟩ := p
    obtain ⟨hident, hnew, hrest⟩ := Copies.wf_cons.mp h
    by_cases hj : j = id
    · rw [Copies.block, if_pos hj] at hs
      cases hs
      rw [Copies.put, if_pos hj]
      exact Copies.wf_cons.mpr ⟨ht.trans hident, hnew, hrest⟩
    · rw [Copies.block, if_neg hj] at hs
      rw [Copies.put, if_neg hj]
      exact Copies.wf_cons.mpr ⟨hident, by rwa [Copies.put_ids], ih hs hrest⟩

/-- A peripheral without a block takes no step; one with a block takes that block's step. -/
theorem Copies.stepAt_cases {c d : Copies} {id : Nat} (h : c.stepAt id = .next d) :
    (c.block id = none ∧ d = c) ∨ ∃ s t, c.block id = some s ∧ step s = .next t ∧ d = c.put id t := by
  cases hb : c.block id with
  | none =>
    simp only [Copies.stepAt, hb] at h
    cases h
    exact .inl ⟨rfl, rfl⟩
  | some s =>
    simp only [Copies.stepAt, hb] at h
    cases hs : step s with
    | next t =>
      simp only [hs] at h
      cases h
      exact .inr ⟨s, t, rfl, hs, rfl⟩
    | fault r => simp only [hs] at h; cases h
    | refused r => simp only [hs] at h; cases h

/-- Settles O53: a step replaces the one block by its next state, which keeps its identity (`step_cfg`). -/
theorem copiesShareNothing : Obligations.CopiesShareNothing := by
  intro c d id h
  rcases Copies.stepAt_cases h with ⟨hb, rfl⟩ | ⟨s, t, hb, hstep, rfl⟩
  · exact ⟨fun _ _ => rfl, fun s hs => (by cases hb.symm.trans hs), fun hwf => hwf⟩
  · refine ⟨fun other ho => c.block_put_other t ho, fun s' hs' => ?_, fun hwf => ?_⟩
    · cases hb.symm.trans hs'
      exact ⟨t, hstep, Copies.block_put_same t hb⟩
    · exact Copies.wf_put hb (congrArg Config.ident (step_cfg hstep)) hwf

/-! ### What the power-on RESET leaves (R38) -/

theorem powerOn_headC (cfg : Config) : (State.powerOn cfg).headC = 0 := ite_self 0

theorem powerOn_tailP (cfg : Config) : (State.powerOn cfg).tailP = 0 := ite_self 0

/-- With at least two entries, cursors at 0 leave room for one byte. -/
theorem powerOn_not_full {cfg : Config} (h : cfg.wellFormed = true) : (State.powerOn cfg).full = false := by
  have hn := wellFormed_n h
  have hinc := inc_spec (n := cfg.n) (c := 0) (by omega)
  have hone : inc cfg.n 0 ≠ 0 := by omega
  rw [not_full_iff, powerOn_tailP]
  exact hone

/-- Settles O14: the values are those `State.powerOn` lists, and with at least two entries the buffer is not full. -/
theorem powerOnValues : Obligations.PowerOnValues := by
  refine ⟨rfl, fun cfg hcfg s hs => ?_⟩
  subst hs
  have hfull := powerOn_not_full hcfg
  have havail : (State.powerOn cfg).rdAvail = false := by rw [State.rdAvail, powerOn_headC]; rfl
  exact ⟨rfl, rfl, fun _ => rfl, rfl, rfl, rfl, rfl, rfl, havail, hfull, rfl, rfl, rfl, rfl, rfl, rfl⟩

/-- With no operation in progress and all cursors at 0 every condition holds. -/
theorem powerOn_inv {cfg : Config} (h : cfg.wellFormed = true) : (State.powerOn cfg).Inv := by
  have hn : 0 < cfg.n := by have := wellFormed_n h; omega
  have hzero : dist cfg.n 0 0 = 0 := dist_same hn
  have hocc : (State.powerOn cfg).occ = 0 := hzero
  have horder : (State.powerOn cfg).lagOrder := fun _ => by simp [State.powerOn, hzero]
  refine ⟨⟨h, ⟨hn, hn, hn, hn⟩, ⟨rfl, nofun⟩, horder, fun k hk => ?_, ⟨nofun, nofun⟩, rfl, ?_, fun _ => rfl⟩, rfl,
    nofun⟩
  · exact absurd hk (by simp [hocc])
  · simp [State.powerOn]

/-- Settles O43: `State.reset` is the power-on state of R5's defaults, which are admitted. -/
theorem invariantAtReset : Obligations.InvariantAtReset :=
  ⟨powerOn_inv (by decide), fun _ => powerOn_inv⟩

end Sys2Proof.Machine
end

section
/-! PROOFS. The cursors and their copies: `inc` and `dist` on `[0, N)`, the careful views, SYNC.H and SYNC.T (O35 to O39). -/

namespace Sys2Proof.Machine

/-! ### `inc` and `dist` on `[0, N)` (R58, R59) -/

theorem inc_surjective {n d : Nat} (hd : d < n) : ∃ c, c < n ∧ inc n c = d := by
  cases d with
  | zero =>
    have hwrap := inc_spec (n := n) (c := n - 1) (by omega)
    exact ⟨n - 1, by omega, by omega⟩
  | succ c =>
    have hinc := inc_spec (n := n) (c := c) (by omega)
    exact ⟨c, by omega, by omega⟩

/-- Settles O38: the value and the wrap are `inc_spec`, and on `[0, N)` `inc` is injective and surjective. -/
theorem incIsBijection : Obligations.IncIsBijection := by
  intro n hn
  refine ⟨fun c hc => ?_, ?_, fun c _ => inc_lt (by omega) c, fun c d => inc_injective, fun d => inc_surjective⟩
  · have hinc := inc_spec (n := n) (c := c) (by omega)
    omega
  · have hinc := inc_spec (n := n) (c := n - 1) (by omega)
    omega

theorem dist_of_le {n a b : Nat} (ha : a < n) (hb : b < n) (h : a ≤ b) : dist n a b = b - a := by
  have hd := dist_spec ha hb
  omega

theorem dist_of_lt {n a b : Nat} (ha : a < n) (hb : b < n) (h : b < a) : dist n a b = n + b - a := by
  have hd := dist_spec ha hb
  omega

theorem dist_inc_self {n a : Nat} (hn : 2 ≤ n) (ha : a < n) : dist n a (inc n a) = 1 := by
  have hinc := inc_spec ha
  have hd := dist_spec ha (inc_lt (by omega) a)
  omega

/-- A full lap less one ahead is one step behind. -/
theorem dist_eq_pred_iff {n a b : Nat} (ha : a < n) (hb : b < n) : dist n a b = n - 1 ↔ inc n b = a := by
  have hinc := inc_spec hb
  have hd := dist_spec ha hb
  omega

/-- Settles O39: `occ` is a `dist`, and `dist` has the values of R59's two cases. -/
theorem distMeasuresForward : Obligations.DistMeasuresForward := by
  refine ⟨fun s => rfl, fun n a b hn ha hb => ?_⟩
  exact ⟨by omega, dist_of_le ha hb, dist_of_lt ha hb, dist_lt (by omega) a b, dist_same ha, dist_inc_self hn ha,
    dist_eq_zero_iff ha hb, dist_eq_pred_iff ha hb⟩

/-! ### The views (R73) -/

/-- Settles O36: the two careful views, for every state that meets the invariant. -/
theorem viewsErrOnCarefulSide : Obligations.ViewsErrOnCarefulSide := by
  rintro s ⟨⟨-, hcur, -, hlag, -⟩, -⟩
  exact ⟨fun h => s.head_ne_tail_of_rdAvail hcur hlag (rdAvail_iff.mpr h),
    fun h => s.inc_head_ne_tail_of_not_full hcur hlag (not_full_iff.mpr h)⟩

/-! ### SYNC.H and SYNC.T (R72, R74) -/

theorem syncHEnabled_iff {s : State} : syncHEnabled s = true ↔ s.cfg.xdLag = true ∧ s.headRd ≠ s.head := by
  simp [syncHEnabled]

theorem syncTEnabled_iff {s : State} : syncTEnabled s = true ↔ s.cfg.xdLag = true ∧ s.tailWr ≠ s.tail := by
  simp [syncTEnabled]

theorem syncH_of_enabled {s : State} (h : syncHEnabled s = true) :
    syncH s = { s with headRd := inc s.cfg.n s.headRd } := if_pos h

theorem syncT_of_enabled {s : State} (h : syncTEnabled s = true) :
    syncT s = { s with tailWr := inc s.cfg.n s.tailWr } := if_pos h

/-- X is not of the normal context, so beside its guard only a contiguous STORE holds it (R5, log 10). -/
theorem enabled_of_synchroniser {s : State} {it : Item} (h : itemAgent s it = .synchroniser) :
    enabled s it = (guardHolds s it && !s.isrHolds) := by
  have hne : (Agent.synchroniser != .producer) = true := by decide
  simp [enabled, waitsForStore, waitsForCall, h, hne, normalContext]

theorem enabled_syncH (s : State) : enabled s .syncH = (syncHEnabled s && !s.isrHolds) := enabled_of_synchroniser rfl

theorem enabled_syncT (s : State) : enabled s .syncT = (syncTEnabled s && !s.isrHolds) := enabled_of_synchroniser rfl

theorem enabled_syncH_of_reached {s : State} (h : s.cfg.xdLag = false ∨ s.headRd = s.head) :
    enabled s .syncH = false := by
  rcases h with h | h <;> simp [enabled_syncH, syncHEnabled, h]

theorem enabled_syncT_of_reached {s : State} (h : s.cfg.xdLag = false ∨ s.tailWr = s.tail) :
    enabled s .syncT = false := by
  rcases h with h | h <;> simp [enabled_syncT, syncTEnabled, h]

/-- Settles O35: where the guard holds the item moves its copy and waits for a contiguous STORE only; elsewhere it is held. -/
theorem syncMovesCopyByOne : Obligations.SyncMovesCopyByOne := by
  intro s
  refine ⟨fun hx hne => ?_, fun hx hne => ?_, enabled_syncH_of_reached, enabled_syncT_of_reached⟩
  · have hg := syncHEnabled_iff.mpr ⟨hx, hne⟩
    exact ⟨by rw [enabled_syncH, hg, Bool.true_and], congrArg Host.Outcome.next (syncH_of_enabled hg)⟩
  · have hg := syncTEnabled_iff.mpr ⟨hx, hne⟩
    exact ⟨by rw [enabled_syncT, hg, Bool.true_and], congrArg Host.Outcome.next (syncT_of_enabled hg)⟩

/-- A step that moves a copy by `inc` until it is at `b` gets there in as many steps as the copy is behind. -/
theorem iterate_dist {α : Type} {f : α → α} {copyAt : Nat → α} {n a b : Nat} (ha : a < n) (hb : b < n)
    (hstep : ∀ c, c ≠ b → f (copyAt c) = copyAt (inc n c)) : f^[dist n a b] (copyAt a) = copyAt b := by
  generalize hd : dist n a b = d
  induction d generalizing a with
  | zero => rw [(dist_eq_zero_iff ha hb).mp hd, Function.iterate_zero_apply]
  | succ d ih =>
    have hne : a ≠ b := fun h => by
      have hzero := (dist_eq_zero_iff ha hb).mpr h
      omega
    have hshrink := dist_inc_left ha hb hne
    rw [Function.iterate_succ_apply, hstep a hne]
    exact ih (inc_lt (by omega) a) (by omega)

theorem syncH_iterate {s : State} (hx : s.cfg.xdLag = true) (hhead : s.head < s.cfg.n) (hcopy : s.headRd < s.cfg.n) :
    syncH^[dist s.cfg.n s.headRd s.head] s = { s with headRd := s.head } :=
  iterate_dist (copyAt := fun c => { s with headRd := c }) hcopy hhead fun c hne =>
    syncH_of_enabled (s := { s with headRd := c }) (syncHEnabled_iff.mpr ⟨hx, hne⟩)

theorem syncT_iterate {s : State} (hx : s.cfg.xdLag = true) (htail : s.tail < s.cfg.n) (hcopy : s.tailWr < s.cfg.n) :
    syncT^[dist s.cfg.n s.tailWr s.tail] s = { s with tailWr := s.tail } :=
  iterate_dist (copyAt := fun c => { s with tailWr := c }) hcopy htail fun c hne =>
    syncT_of_enabled (s := { s with tailWr := c }) (syncTEnabled_iff.mpr ⟨hx, hne⟩)

/-- Settles O37: the copies reach their cursors (`syncH_iterate`, `syncT_iterate`), and there X has nothing to do. -/
theorem syncReachesHead : Obligations.SyncReachesHead := by
  rintro s ⟨⟨-, ⟨hhead, htail, hheadRd, htailWr⟩, -⟩, -⟩ hx
  have hH := syncH_iterate hx hhead hheadRd
  have hT := syncT_iterate hx htail htailWr
  exact ⟨hH, hH ▸ enabled_syncH_of_reached (.inr rfl), hT, hT ▸ enabled_syncT_of_reached (.inr rfl)⟩

end Sys2Proof.Machine
end

section
/-! PROOFS. The Gray view: its inverse, its one-bit steps, its comparators (O40 to O42). -/

namespace Sys2Proof.Machine

/-! ### `gray` and `bin` bit by bit (R66) -/

theorem getLsbD_gray {w : Nat} (c : BitVec w) (i : Nat) :
    (gray c).getLsbD i = (c.getLsbD i ^^ c.getLsbD (i + 1)) := by
  simp [gray, Nat.add_comm]

theorem getLsbD_ungray {w : Nat} (g : BitVec w) {i : Nat} (hi : i < w) :
    (ungray g).getLsbD i = ungrayTop g (w - 1 - i) := by
  simp [ungray, hi]

/-- A bit of `bin(g)` is the one above it XOR the bit of `g`. -/
theorem getLsbD_ungray_succ {w : Nat} (g : BitVec w) {i : Nat} (hi : i < w) :
    (ungray g).getLsbD i = ((ungray g).getLsbD (i + 1) ^^ g.getLsbD i) := by
  rw [getLsbD_ungray g hi]
  by_cases htop : i + 1 = w
  · have habove : (ungray g).getLsbD (i + 1) = false := BitVec.getLsbD_of_ge _ _ (by omega)
    rw [habove, Bool.false_xor, show w - 1 - i = 0 by omega, ungrayTop, show w - 1 = i by omega]
  · rw [getLsbD_ungray g (by omega), show w - 1 - i = w - 1 - (i + 1) + 1 by omega, ungrayTop,
      show w - 1 - (w - 1 - (i + 1) + 1) = i by omega]

/-- From the top down, `bin(gray(c))` has the bits of `c`: the two XORs with the bit above cancel. -/
theorem ungrayTop_gray {w : Nat} (c : BitVec w) {k : Nat} (hk : k < w) :
    ungrayTop (gray c) k = c.getLsbD (w - 1 - k) := by
  induction k with
  | zero =>
    have habove : c.getLsbD (w - 1 + 1) = false := BitVec.getLsbD_of_ge _ _ (by omega)
    rw [ungrayTop, getLsbD_gray, habove, Bool.xor_false, Nat.sub_zero]
  | succ k ih =>
    rw [ungrayTop, ih (by omega), getLsbD_gray, show w - 1 - (k + 1) + 1 = w - 1 - k by omega, Bool.xor_comm,
      Bool.xor_assoc, Bool.xor_self, Bool.xor_false]

theorem ungray_gray {w : Nat} (c : BitVec w) : ungray (gray c) = c := by
  refine BitVec.eq_of_getLsbD_eq fun i hi => ?_
  rw [getLsbD_ungray _ hi, ungrayTop_gray c (by omega), show w - 1 - (w - 1 - i) = i by omega]

theorem gray_ungray {w : Nat} (g : BitVec w) : gray (ungray g) = g := by
  refine BitVec.eq_of_getLsbD_eq fun i hi => ?_
  rw [getLsbD_gray, getLsbD_ungray_succ g hi, Bool.xor_comm, ← Bool.xor_assoc, Bool.xor_self, Bool.false_xor]

/-- Settles O40: bit by bit, the XORs with the bit above cancel in both directions. -/
theorem grayHasInverse : Obligations.GrayHasInverse := fun _ c => ⟨ungray_gray c, gray_ungray c⟩

/-! ### The step from `gray(c)` to `gray(c + 1)` (R66) -/

/-- Adding 1 turns over a bit exactly where all the bits below it are 1. -/
theorem getLsbD_xor_add_one {w : Nat} (c : BitVec w) {i : Nat} (hi : i < w) :
    (c ^^^ (c + 1)).getLsbD i = decide (∀ j < i, c.getLsbD j = true) := by
  rw [BitVec.getLsbD_xor, BitVec.getLsbD_add hi, ← Bool.xor_assoc, Bool.xor_self, Bool.false_xor]
  cases i with
  | zero => simp [hi]
  | succ i => simp [BitVec.carry_succ_one i c (by omega)]

/-- Those are the bits up to the lowest 0 of `c`, all of them where `c` has none. -/
theorem exists_getLsbD_xor_add_one {w : Nat} (c : BitVec w) (hw : 0 < w) :
    ∃ k, k < w ∧ ∀ i, (c ^^^ (c + 1)).getLsbD i = decide (i ≤ k) := by
  have hzero : ∃ k, c.getLsbD k = false := ⟨w, BitVec.getLsbD_of_ge _ _ le_rfl⟩
  refine ⟨min (Nat.find hzero) (w - 1), by omega, fun i => ?_⟩
  by_cases hi : i < w
  · have hones : (∀ j < i, c.getLsbD j = true) ↔ i ≤ Nat.find hzero := by
      simp [Nat.le_find_iff]
    rw [getLsbD_xor_add_one c hi, decide_eq_decide, hones]
    omega
  · rw [BitVec.getLsbD_of_ge _ _ (by omega)]
    simp; omega

theorem gray_xor {w : Nat} (a b : BitVec w) : gray a ^^^ gray b = gray (a ^^^ b) := by
  refine BitVec.eq_of_getLsbD_eq fun i _ => ?_
  simp only [BitVec.getLsbD_xor, getLsbD_gray, Bool.xor_assoc, Bool.xor_left_comm]

/-- Settles O41: `gray` is linear, `c ^^^ (c + 1)` is 1 exactly in the bits up to some `k`, and the Gray code of that is the
one bit `k`. -/
theorem grayStepChangesOneBit : Obligations.GrayStepChangesOneBit := by
  intro w c hw
  obtain ⟨k, hk, hbits⟩ := exists_getLsbD_xor_add_one c hw
  refine ⟨k, hk, BitVec.eq_of_getLsbD_eq fun i _ => ?_⟩
  rw [gray_xor, getLsbD_gray, hbits, hbits, BitVec.getLsbD_twoPow, decide_eq_true hk, Bool.true_and]
  by_cases h : k = i
  · simp [h]
  · have hsame : i ≤ k ↔ i + 1 ≤ k := by omega
    rw [decide_eq_decide.mpr hsame, Bool.xor_self, decide_eq_false h]

/-! ### The Gray comparators (R67) -/

theorem gray_injective {w : Nat} {a b : BitVec w} (h : gray a = gray b) : a = b := by
  rw [← ungray_gray a, h, ungray_gray]

/-- Cursors fit their register, so the Gray-coded registers are equal exactly if the cursors are. -/
theorem State.grayOf_eq_iff {s : State} {c d : Nat} (hc : c < s.cfg.n) (hd : d < s.cfg.n) :
    s.grayOf c = s.grayOf d ↔ c = d := by
  refine ⟨fun h => ?_, congrArg s.grayOf⟩
  have hwidth := n_le_two_pow_width s.cfg
  have hnat := congrArg BitVec.toNat (gray_injective h)
  rwa [BitVec.toNat_ofNat, BitVec.toNat_ofNat, Nat.mod_eq_of_lt (by omega), Nat.mod_eq_of_lt (by omega)] at hnat

/-- Settles O42: each comparator compares two registers of cursors in range (`State.grayOf_eq_iff`). -/
theorem grayComparatorsAgree : Obligations.GrayComparatorsAgree := by
  rintro s ⟨⟨-, hcur, -⟩, -⟩ -
  obtain ⟨hhead, htail, -, -⟩ := id hcur
  have havail := State.grayOf_eq_iff (s.headC_lt hcur) htail
  have hfull : s.grayOf (s.succ s.head) = s.grayOf s.tailP ↔ inc s.cfg.n s.head = s.tailP :=
    State.grayOf_eq_iff (inc_lt (Nat.zero_lt_of_lt hhead) s.head) (s.tailP_lt hcur)
  constructor
  · rw [Bool.eq_iff_iff, rdAvail_iff]
    simpa [State.rdAvailGray] using not_congr havail
  · rw [Bool.eq_iff_iff, full_iff]
    simpa [State.fullGray] using hfull

end Sys2Proof.Machine
end

section
/-! PROOFS. No step from a state that meets the invariant stops (O45). -/

namespace Sys2Proof.Machine

/-- The outcome is a next state. -/
def Answers (o : Out) : Prop := ∃ t, o = .next t

theorem answers_next (s : State) : Answers (.next s) := ⟨s, rfl⟩

theorem answers_andThen {o : Out} {f : State → Out} (ho : Answers o) (hf : ∀ t, o = .next t → Answers (f t)) :
    Answers (andThen o f) := by
  obtain ⟨s, rfl⟩ := ho
  exact hf s rfl

/-! ### The accesses to storage (R50, R21) -/

theorem storeEntry_answers {s : State} {i : Nat} (v : Byte) (h : i < s.cfg.n) : Answers (storeEntry i v s) :=
  ⟨_, storeEntry_eq_next.mpr ⟨h, rfl⟩⟩

/-- The entry C sees at `tail` is the first of the contents, so it holds a value (R26). -/
theorem State.blockInv.exists_read_tail {s : State} (h : s.blockInv) (ha : s.rdAvail = true) :
    ∃ v, s.storage.read s.tail = some v := by
  obtain ⟨-, hcur, -, hlag, hcon, -⟩ := h
  have hne := s.head_ne_tail_of_rdAvail hcur hlag ha
  obtain ⟨hhead, htail, -, -⟩ := hcur
  have hocc : 0 < s.occ := Nat.pos_of_ne_zero fun h0 => hne ((dist_eq_zero_iff htail hhead).mp h0).symm
  exact Option.isSome_iff_exists.mp (s.slot_zero htail ▸ hcon 0 hocc)

theorem store2_answers {s : State} (h : s.head < s.cfg.n) : Answers (store2 s) := by
  rw [store2]
  split
  · exact answers_andThen (storeEntry_answers _ h) fun t _ => answers_next _
  · exact answers_next s
  · exact answers_next s

theorem store3_answers (s : State) : Answers (store3 s) := by
  rw [store3]
  split <;> exact answers_next _

theorem take1_answers {s : State} (h : s.blockInv) : Answers (take1 s) := by
  rw [take1]
  split
  · exact answers_next _
  · split
    · exact answers_next _
    · obtain ⟨v, hv⟩ := h.exists_read_tail (by simpa using ‹¬(!s.rdAvail) = true›)
      obtain ⟨-, ⟨-, htail, -, -⟩, -⟩ := h
      exact ⟨_, loadEntry_eq_next.mpr ⟨htail, v, hv, rfl⟩⟩

theorem take2_answers (s : State) : Answers (take2 s) := by
  rw [take2]
  split <;> exact answers_next _

/-! ### The operations, the software and the items -/

theorem execStore_answers (b : Byte) {s : State} (h : s.blockInv) : Answers (execStore b s) := by
  obtain ⟨-, ⟨hhead, -⟩, -⟩ : (store1 b s).blockInv := Micros.blockInv (r := false) (store1_micro b s) h
  rw [execStore]
  split
  · exact answers_andThen (store2_answers hhead) fun t _ => store3_answers t
  · exact answers_next _

theorem execAvail_answers (s : State) : Answers (execAvail s) := by
  rw [execAvail]
  split <;> exact answers_next _

theorem execTake_answers {s : State} (h : s.blockInv) : Answers (execTake s) := by
  rw [execTake]
  split
  · exact answers_andThen (take1_answers h) fun t _ => take2_answers t
  · exact take1_answers h

theorem exec_answers (i : Instr) {s : State} (h : s.blockInv) : Answers (exec i s) := by
  cases i with
  | nop => exact answers_next s
  | reset => rw [exec, execReset]; split <;> exact answers_next _
  | store b => exact execStore_answers b h
  | avail => exact execAvail_answers s
  | take => exact execTake_answers h
  | send b => rw [exec, execSend]; split <;> exact answers_next _

theorem runWord_answers (w : OpWord) {s : State} (h : s.blockInv) : Answers (runWord w s) := by
  rw [runWord]
  split
  · exact exec_answers _ h
  · exact answers_next _

theorem pollTurn_answers (job : ReadJob) (s : State) : Answers (pollTurn job s) := by
  rw [pollTurn]
  split
  · exact answers_next _
  · refine answers_andThen (execAvail_answers s) fun t _ => ?_
    split_ifs <;> exact answers_next _

theorem takeTurn_answers (job : ReadJob) {s : State} (h : s.blockInv) : Answers (takeTurn job s) := by
  rw [takeTurn]
  split <;> exact answers_andThen (take1_answers h) fun t _ => answers_next _

theorem advanceTurn_answers (job : ReadJob) (s : State) : Answers (advanceTurn job s) := by
  rw [advanceTurn]
  split
  · exact answers_andThen (take2_answers s) fun t _ => answers_next _
  · exact answers_next s

theorem softTurn_answers {s : State} (h : s.blockInv) : Answers (softTurn s) := by
  rw [softTurn]
  split
  · exact answers_next s
  · exact pollTurn_answers _ s
  · exact takeTurn_answers _ h
  · exact advanceTurn_answers _ s
  · exact answers_next _
  · exact answers_next _

theorem runItem_answers (it : Item) {s : State} (h : s.blockInv) : Answers (runItem it s) := by
  cases it with
  | word w => exact runWord_answers w h
  | store2 =>
    obtain ⟨-, ⟨hhead, -⟩, -⟩ := h
    exact store2_answers hhead
  | store3 => exact store3_answers s
  | take1 => exact take1_answers h
  | take2 => exact take2_answers s
  | soft => exact softTurn_answers h
  | _ => exact answers_next _

/-- Settles O45: only STORE.2 and TAKE.1 can stop, and under the invariant `head` and `tail` are in range and the entry TAKE.1
reads is written. -/
theorem stepNeverStops : Obligations.StepNeverStops := by
  intro s h
  rcases step_cases s with ⟨it, -, hrun⟩ | ⟨-, hrun⟩
  · obtain ⟨hblock, -⟩ := s.inv_nextTurn h
    exact hrun ▸ runItem_answers it hblock
  · exact ⟨_, hrun⟩

end Sys2Proof.Machine
end

section
/-! PROOFS. Each part of the block has one writer (O48). -/

namespace Sys2Proof.Machine

/-! The parts of the block that have one writer each: P's, C's, T's and X's (R20, R64). -/

def State.partP (s : State) : Memory × Nat × PPhase := (s.storage, s.head, s.pPhase)

def State.partC (s : State) : Nat × CPhase := (s.tail, s.cPhase)

def State.partT (s : State) : TxPhase × List Byte := (s.txPhase, s.txLog)

def State.partX (s : State) : Nat × Nat := (s.headRd, s.tailWr)

theorem State.partP_eq_iff {s t : State} :
    t.partP = s.partP ↔ t.storage = s.storage ∧ t.head = s.head ∧ t.pPhase = s.pPhase := by
  simp [State.partP]

theorem State.partC_eq_iff {s t : State} : t.partC = s.partC ↔ t.tail = s.tail ∧ t.cPhase = s.cPhase := by
  simp [State.partC]

theorem State.partT_eq_iff {s t : State} : t.partT = s.partT ↔ t.txPhase = s.txPhase ∧ t.txLog = s.txLog := by
  simp [State.partT]

theorem State.partX_eq_iff {s t : State} : t.partX = s.partX ↔ t.headRd = s.headRd ∧ t.tailWr = s.tailWr := by
  simp [State.partX]

/-- Of the four parts at most that of the agent `a` changed. -/
structure WritesOnly (a : Agent) (s t : State) : Prop where
  producer : a ≠ .producer → t.partP = s.partP
  consumer : a ≠ .consumer → t.partC = s.partC
  transmitter : a ≠ .transmitter → t.partT = s.partT
  synchroniser : a ≠ .synchroniser → t.partX = s.partX

namespace WritesOnly

variable {a : Agent} {s t u : State}

theorem trans (h : WritesOnly a s t) (h' : WritesOnly a t u) : WritesOnly a s u where
  producer ha := (h'.producer ha).trans (h.producer ha)
  consumer ha := (h'.consumer ha).trans (h.consumer ha)
  transmitter ha := (h'.transmitter ha).trans (h.transmitter ha)
  synchroniser ha := (h'.synchroniser ha).trans (h.synchroniser ha)

theorem of_none (hP : t.partP = s.partP) (hC : t.partC = s.partC) (hT : t.partT = s.partT) (hX : t.partX = s.partX) :
    WritesOnly a s t := ⟨fun _ => hP, fun _ => hC, fun _ => hT, fun _ => hX⟩

theorem of_P (hC : t.partC = s.partC) (hT : t.partT = s.partT) (hX : t.partX = s.partX) :
    WritesOnly .producer s t := ⟨fun h => absurd rfl h, fun _ => hC, fun _ => hT, fun _ => hX⟩

theorem of_C (hP : t.partP = s.partP) (hT : t.partT = s.partT) (hX : t.partX = s.partX) :
    WritesOnly .consumer s t := ⟨fun _ => hP, fun h => absurd rfl h, fun _ => hT, fun _ => hX⟩

theorem of_T (hP : t.partP = s.partP) (hC : t.partC = s.partC) (hX : t.partX = s.partX) :
    WritesOnly .transmitter s t := ⟨fun _ => hP, fun _ => hC, fun h => absurd rfl h, fun _ => hX⟩

theorem of_X (hP : t.partP = s.partP) (hC : t.partC = s.partC) (hT : t.partT = s.partT) :
    WritesOnly .synchroniser s t := ⟨fun _ => hP, fun _ => hC, fun _ => hT, fun h => absurd rfl h⟩

end WritesOnly

/-- An outcome's next state is reached by writes of the agent `a` only. -/
def OutWritesOnly (a : Agent) (s : State) (o : Out) : Prop := ∀ t, o = .next t → WritesOnly a s t

section

variable {a : Agent}

theorem outWritesOnly_next {s t : State} (h : WritesOnly a s t) : OutWritesOnly a s (.next t) := by
  intro u hu; cases hu; exact h

theorem outWritesOnly_andThen {s : State} {o : Out} {f : State → Out} (ho : OutWritesOnly a s o)
    (hf : ∀ t, OutWritesOnly a t (f t)) : OutWritesOnly a s (andThen o f) := by
  intro u hu
  obtain ⟨t, ht, hu⟩ := andThen_eq_next.mp hu
  exact (ho t ht).trans (hf t u hu)

end

/-! ### The micro-steps and operations of P, C, T and X -/

/-- STORE.2 writes at `head`, or has nothing to do (R112). -/
theorem store2_cases {s t : State} (h : store2 s = .next t) :
    t = s ∨ ∃ b, s.pPhase = .write b ∧ t = { s with storage := s.storage.write s.head b, pPhase := .publish } := by
  rw [store2] at h
  split at h
  · obtain ⟨u, hu, ht⟩ := andThen_eq_next.mp h
    obtain ⟨-, rfl⟩ := storeEntry_eq_next.mp hu
    cases ht
    exact .inr ⟨_, ‹_›, rfl⟩
  · cases h; exact .inl rfl
  · cases h; exact .inl rfl

/-- STORE.3 advances `head`, or has nothing to do (R113). -/
theorem store3_cases {s t : State} (h : store3 s = .next t) :
    t = s ∨ s.pPhase = .publish ∧ t = { s with head := s.succ s.head, pPhase := .idle } := by
  rw [store3] at h
  split at h <;> cases h
  · exact .inr ⟨‹_›, rfl⟩
  · exact .inl rfl
  · exact .inl rfl

/-- TAKE.2 advances `tail`, or has nothing to do (R117). -/
theorem take2_cases {s t : State} (h : take2 s = .next t) :
    t = s ∨ ∃ v, s.cPhase = .adv v ∧ t = { s with tail := s.succ s.tail, cPhase := .idle }.returnRd (.byte v) := by
  rw [take2] at h
  split at h <;> cases h
  · exact .inr ⟨_, ‹_›, rfl⟩
  · exact .inl rfl

theorem store1_writesOnly (b : Byte) (s : State) : WritesOnly .producer s (store1 b s) := by
  cases hacc : storeAccepted b s with
  | true =>
    rw [store1_of_accepted hacc]
    exact .of_P rfl rfl rfl
  | false =>
    rcases store1_of_not_accepted hacc with ⟨c, h⟩ | h <;> rw [h]
    · exact .of_none rfl rfl rfl rfl
    · exact .of_none rfl rfl rfl rfl

theorem store2_writesOnly (s : State) : OutWritesOnly .producer s (store2 s) := by
  intro t h
  rcases store2_cases h with rfl | ⟨b, -, rfl⟩
  · exact .of_none rfl rfl rfl rfl
  · exact .of_P rfl rfl rfl

theorem store3_writesOnly (s : State) : OutWritesOnly .producer s (store3 s) := by
  intro t h
  rcases store3_cases h with rfl | ⟨-, rfl⟩
  · exact .of_none rfl rfl rfl rfl
  · exact .of_P rfl rfl rfl

theorem execStore_writesOnly (b : Byte) (s : State) : OutWritesOnly .producer s (execStore b s) := by
  intro t h
  rcases execStore_cases h with ⟨-, ⟨c, rfl⟩ | rfl⟩ | ⟨-, rfl⟩
  · exact .of_none rfl rfl rfl rfl
  · exact .of_none rfl rfl rfl rfl
  · exact .of_P rfl rfl rfl

theorem execAvail_writesOnly (s : State) : OutWritesOnly .consumer s (execAvail s) := by
  intro t h
  rcases execAvail_cases h with ⟨-, rfl⟩ | ⟨-, rfl⟩
  · exact .of_none rfl rfl rfl rfl
  · exact .of_none rfl rfl rfl rfl

theorem take1_writesOnly (s : State) : OutWritesOnly .consumer s (take1 s) := by
  intro t h
  rcases take1_cases h with ⟨-, rfl⟩ | ⟨-, -, rfl⟩ | ⟨-, -, v, -, rfl⟩
  · exact .of_none rfl rfl rfl rfl
  · exact .of_none rfl rfl rfl rfl
  · exact .of_C rfl rfl rfl

theorem take2_writesOnly (s : State) : OutWritesOnly .consumer s (take2 s) := by
  intro t h
  rcases take2_cases h with rfl | ⟨v, -, rfl⟩
  · exact .of_none rfl rfl rfl rfl
  · exact .of_C rfl rfl rfl

theorem execTake_writesOnly (s : State) : OutWritesOnly .consumer s (execTake s) := by
  rw [execTake]
  split
  · exact outWritesOnly_andThen (take1_writesOnly s) take2_writesOnly
  · exact take1_writesOnly s

theorem send1_writesOnly (b : Byte) (s : State) : WritesOnly .transmitter s (send1 b s) := by
  rw [send1]
  split
  · exact .of_none rfl rfl rfl rfl
  · exact .of_T rfl rfl rfl

theorem send2_writesOnly (s : State) : WritesOnly .transmitter s (send2 s) := by
  obtain ⟨polls, drawn, hd⟩ := drawReady_own s
  rw [send2]
  split
  · split <;> rw [hd]
    · exact .of_T rfl rfl rfl
    · exact .of_none rfl rfl rfl rfl
  · exact .of_none rfl rfl rfl rfl

theorem pollTimes_writesOnly (k : Nat) (s : State) : WritesOnly .transmitter s (pollTimes k s) := by
  induction k generalizing s with
  | zero => exact .of_none rfl rfl rfl rfl
  | succ k ih => exact (send2_writesOnly s).trans (ih _)

theorem markHeld_writesOnly {a : Agent} (s : State) : WritesOnly a s (markHeld s) := by
  rw [markHeld]
  split <;> exact .of_none rfl rfl rfl rfl

theorem execSend_writesOnly (b : Byte) (s : State) : OutWritesOnly .transmitter s (execSend b s) := by
  rw [execSend]
  split
  · exact outWritesOnly_next
      (((send1_writesOnly b s).trans (pollTimes_writesOnly _ _)).trans (markHeld_writesOnly _))
  · exact outWritesOnly_next (send1_writesOnly b s)

theorem syncH_writesOnly (s : State) : WritesOnly .synchroniser s (syncH s) := by
  rw [syncH]
  split
  · exact .of_X rfl rfl rfl
  · exact .of_none rfl rfl rfl rfl

theorem syncT_writesOnly (s : State) : WritesOnly .synchroniser s (syncT s) := by
  rw [syncT]
  split
  · exact .of_X rfl rfl rfl
  · exact .of_none rfl rfl rfl rfl

theorem initBlock_writesOnly {a : Agent} (s : State) : WritesOnly a s (initBlock s) := by
  rw [initBlock]
  split <;> exact .of_none rfl rfl rfl rfl

theorem exec_writesOnly {i : Instr} (hi : i ≠ .reset) (s : State) : OutWritesOnly (instrAgent i) s (exec i s) := by
  cases i with
  | nop => exact outWritesOnly_next (.of_none rfl rfl rfl rfl)
  | reset => exact absurd rfl hi
  | store b => exact execStore_writesOnly b s
  | avail => exact execAvail_writesOnly s
  | take => exact execTake_writesOnly s
  | send b => exact execSend_writesOnly b s

theorem runWord_writesOnly {w : OpWord} (hw : decode w ≠ .ok .reset) (s : State) :
    OutWritesOnly (wordAgent w) s (runWord w s) := by
  rw [runWord, wordAgent]
  cases hd : decode w with
  | ok i => exact exec_writesOnly (fun h => hw (h ▸ hd)) s
  | error e => exact outWritesOnly_next (.of_none rfl rfl rfl rfl)

/-! ### The software -/

section

variable {a : Agent}

theorem sendRest_writesOnly (rest : List Byte) (s : State) : WritesOnly a s (sendRest rest s) := by
  cases rest with
  | nil => exact .of_none rfl rfl rfl rfl
  | cons b rest => exact .of_none rfl rfl rfl rfl

theorem startCall_writesOnly (c : Call) (s : State) : WritesOnly a s (startCall c s) := by
  cases c with
  | rdByte | rdLine | rdVal | rdFlt => exact .of_none rfl rfl rfl rfl
  | _ => exact sendRest_writesOnly _ s

theorem refuseLine_writesOnly (l : LineJob) (s : State) : WritesOnly a s (refuseLine l s) := .of_none rfl rfl rfl rfl

theorem lineByte_writesOnly (t : Nat) (l : LineJob) (v : Byte) (s : State) : WritesOnly a s (lineByte t l v s) := by
  rw [lineByte]
  split
  · split
    · exact refuseLine_writesOnly l s
    · exact .of_none rfl rfl rfl rfl
  · split
    · exact .of_none rfl rfl rfl rfl
    · split
      · exact refuseLine_writesOnly l s
      · exact .of_none rfl rfl rfl rfl

theorem deliverByte_writesOnly (job : ReadJob) (v : Byte) (s : State) : WritesOnly a s (deliverByte job v s) := by
  rw [deliverByte]
  split
  · exact .of_none rfl rfl rfl rfl
  · exact lineByte_writesOnly _ _ _ s

end

theorem pollTurn_writesOnly (job : ReadJob) (s : State) : OutWritesOnly .consumer s (pollTurn job s) := by
  rw [pollTurn]
  split
  · exact outWritesOnly_next (.of_none rfl rfl rfl rfl)
  · refine outWritesOnly_andThen (execAvail_writesOnly s) fun t => ?_
    split_ifs <;> exact outWritesOnly_next (.of_none rfl rfl rfl rfl)

theorem takeTurn_writesOnly (job : ReadJob) (s : State) : OutWritesOnly .consumer s (takeTurn job s) := by
  rw [takeTurn]
  split <;> exact outWritesOnly_andThen (take1_writesOnly s) fun t => outWritesOnly_next (.of_none rfl rfl rfl rfl)

theorem advanceTurn_writesOnly (job : ReadJob) (s : State) : OutWritesOnly .consumer s (advanceTurn job s) := by
  rw [advanceTurn]
  split
  · exact outWritesOnly_andThen (take2_writesOnly s) fun t => outWritesOnly_next (deliverByte_writesOnly _ _ t)
  · exact outWritesOnly_next (.of_none rfl rfl rfl rfl)

theorem sendTurn_writesOnly (rest : List Byte) (s : State) : WritesOnly .transmitter s (sendTurn rest s) := by
  cases rest with
  | nil => exact .of_none rfl rfl rfl rfl
  | cons b rest =>
    rw [sendTurn]
    split <;> exact (send1_writesOnly b s).trans (.of_none rfl rfl rfl rfl)

theorem waitTurn_writesOnly (rest : List Byte) (s : State) : WritesOnly .transmitter s (waitTurn rest s) := by
  rw [waitTurn]
  split
  · exact (send2_writesOnly s).trans (sendRest_writesOnly _ _)
  · exact send2_writesOnly s

theorem softTurn_writesOnly (s : State) : OutWritesOnly (softAgent s.soft) s (softTurn s) := by
  rw [softTurn]
  split <;> rename_i h <;> rw [h]
  · exact outWritesOnly_next (.of_none rfl rfl rfl rfl)
  · exact pollTurn_writesOnly _ s
  · exact takeTurn_writesOnly _ s
  · exact advanceTurn_writesOnly _ s
  · exact outWritesOnly_next (sendTurn_writesOnly _ s)
  · exact outWritesOnly_next (waitTurn_writesOnly _ s)

/-! ### The items -/

/-- Every item but RESET writes the part of its own agent only; of the receive interrupt, which is P's STORE.1, that part is
P's (R187). -/
theorem runItem_writesOnly {it : Item} (hreset : noReset it) (hint : ∀ b, it ≠ .interrupt b) (s : State) :
    OutWritesOnly (itemAgent s it) s (runItem it s) := by
  cases it with
  | word w => exact runWord_writesOnly (hreset w rfl) s
  | interrupt b => exact absurd rfl (hint b)
  | store1 b => exact outWritesOnly_next (store1_writesOnly b s)
  | store2 => exact store2_writesOnly s
  | store3 => exact store3_writesOnly s
  | take1 => exact take1_writesOnly s
  | take2 => exact take2_writesOnly s
  | send1 b => exact outWritesOnly_next (send1_writesOnly b s)
  | send2 => exact outWritesOnly_next (send2_writesOnly s)
  | syncH => exact outWritesOnly_next (syncH_writesOnly s)
  | syncT => exact outWritesOnly_next (syncT_writesOnly s)
  | init => exact outWritesOnly_next (initBlock_writesOnly s)
  | call c => exact outWritesOnly_next (startCall_writesOnly c s)
  | soft => exact softTurn_writesOnly s

/-- Settles O48: every item but RESET writes the part of its own agent only (`runItem_writesOnly`), and the receive interrupt
that of P. -/
theorem singleWriter : Obligations.SingleWriter := by
  intro s t it hne h
  by_cases hint : ∃ b, it = .interrupt b
  · obtain ⟨b, rfl⟩ := hint
    cases h
    have hw := store1_writesOnly b s
    exact ⟨fun _ henv => absurd rfl henv, fun _ => State.partC_eq_iff.mp (hw.consumer nofun),
      fun _ => State.partT_eq_iff.mp (hw.transmitter nofun), fun _ => State.partX_eq_iff.mp (hw.synchroniser nofun)⟩
  · have hw := runItem_writesOnly (noReset_of_ne hne) (fun b hb => hint ⟨b, hb⟩) s t h
    exact ⟨fun ha _ => State.partP_eq_iff.mp (hw.producer ha), fun ha => State.partC_eq_iff.mp (hw.consumer ha),
      fun ha => State.partT_eq_iff.mp (hw.transmitter ha), fun ha => State.partX_eq_iff.mp (hw.synchroniser ha)⟩

end Sys2Proof.Machine
end

section
/-! PROOFS. A STORE in progress and a TAKE do not meet (O50). -/

namespace Sys2Proof.Machine

/-! ### What P and C may replace, and what they do not look at -/

/-- The same state with P's part replaced. -/
def State.withProducer (s : State) (storage : Memory) (head : Nat) (pPhase : PPhase) : State :=
  { s with storage := storage, head := head, pPhase := pPhase }

/-- The same state with what C's micro-steps write replaced, the fault apart. -/
def State.withConsumer (s : State) (tail : Nat) (cPhase : CPhase) (rdLog : List RdResult)
    (refused : Option RefusalCause) : State :=
  { s with tail := tail, cPhase := cPhase, rdLog := rdLog, refused := refused }

theorem store2_withConsumer (s : State) (tl : Nat) (c : CPhase) (rd : List RdResult) (rf : Option RefusalCause) :
    store2 (s.withConsumer tl c rd rf) = onNext (State.withConsumer · tl c rd rf) (store2 s) := by
  cases hp : s.pPhase with
  | write b => by_cases hh : s.head < s.cfg.n <;> simp [store2, hp, State.withConsumer, storeEntry, hh, andThen, onNext]
  | _ => simp [store2, hp, State.withConsumer, onNext]

theorem store3_withConsumer (s : State) (tl : Nat) (c : CPhase) (rd : List RdResult) (rf : Option RefusalCause) :
    store3 (s.withConsumer tl c rd rf) = onNext (State.withConsumer · tl c rd rf) (store3 s) := by
  cases hp : s.pPhase <;> simp [store3, hp, State.withConsumer, State.succ, onNext]

theorem take2_withProducer (s : State) (m : Memory) (hd : Nat) (p : PPhase) :
    take2 (s.withProducer m hd p) = onNext (State.withProducer · m hd p) (take2 s) := by
  cases hc : s.cPhase <;> simp [take2, hc, State.withProducer, State.succ, State.returnRd, onNext]

theorem take1_of_busy {s : State} (hc : s.cPhase ≠ .idle) : take1 s = .next (s.refuse (.portBusy .rd)) := by
  simp [take1, hc]

theorem take1_of_rdAvail {s : State} (hc : s.cPhase = .idle) (ha : s.rdAvail = true) :
    take1 s = loadEntry s.tail s fun v => .next { s with cPhase := .adv v } := by simp [take1, hc, ha]

/-- A read answers alike where the entry is the same. -/
theorem loadEntry_withProducer {s : State} {m : Memory} {hd : Nat} {p : PPhase} {i : Nat} {k k' : Byte → Out}
    (hv : m.read i = s.storage.read i) (hk : ∀ v, k' v = onNext (State.withProducer · m hd p) (k v)) :
    loadEntry i (s.withProducer m hd p) k' = onNext (State.withProducer · m hd p) (loadEntry i s k) := by
  by_cases hi : i < s.cfg.n
  · cases hr : s.storage.read i <;> simp [loadEntry, State.withProducer, hi, hv, hr, hk, onNext]
  · simp [loadEntry, State.withProducer, hi, onNext]

/-- TAKE.1 looks at P's part through C's view and the entry at `tail` only. -/
theorem take1_withProducer {s : State} {m : Memory} {hd : Nat} {p : PPhase} (ha : s.rdAvail = true)
    (ha' : (s.withProducer m hd p).rdAvail = true) (hv : m.read s.tail = s.storage.read s.tail) :
    take1 (s.withProducer m hd p) = onNext (State.withProducer · m hd p) (take1 s) := by
  by_cases hc : s.cPhase = .idle
  · rw [take1_of_rdAvail (s := s.withProducer m hd p) hc ha', take1_of_rdAvail hc ha]
    exact loadEntry_withProducer hv fun _ => rfl
  · rw [take1_of_busy (s := s.withProducer m hd p) hc, take1_of_busy hc]
    rfl

/-- Two steps that replace different parts, each not looking at what the other replaces, commute. -/
theorem andThen_comm_of_parts {P C : State → Out} {s : State} {m : Memory} {hd : Nat} {p : PPhase} {tl : Nat} {c : CPhase}
    {rd : List RdResult} {rf : Option RefusalCause} (hP : P s = .next (s.withProducer m hd p))
    (hC : C s = .next (s.withConsumer tl c rd rf))
    (hCP : C (s.withProducer m hd p) = onNext (State.withProducer · m hd p) (C s))
    (hPC : P (s.withConsumer tl c rd rf) = onNext (State.withConsumer · tl c rd rf) (P s)) :
    andThen (P s) C = andThen (C s) P := by
  calc andThen (P s) C = C (s.withProducer m hd p) := by rw [hP, andThen_next]
    _ = .next ((s.withConsumer tl c rd rf).withProducer m hd p) := by rw [hCP, hC, onNext]
    _ = .next ((s.withProducer m hd p).withConsumer tl c rd rf) := rfl
    _ = P (s.withConsumer tl c rd rf) := by rw [hPC, hP, onNext]
    _ = andThen (C s) P := by rw [hC, andThen_next]

/-! ### The micro-steps of a STORE and of a TAKE under the invariant -/

/-- The step replaces P's part, and C still sees a byte, and the same byte at `tail`. -/
def MovesUnseen (P : State → Out) (s : State) : Prop :=
  ∃ m hd p, P s = .next (s.withProducer m hd p) ∧ (s.withProducer m hd p).rdAvail = true ∧
    m.read s.tail = s.storage.read s.tail

theorem movesUnseen_of_same {P : State → Out} {s : State} (h : P s = .next s) (ha : s.rdAvail = true) :
    MovesUnseen P s := ⟨s.storage, s.head, s.pPhase, h, ha, rfl⟩

/-- STORE.2 writes at `head`, which is not `tail` where C sees a byte. -/
theorem store2_movesUnseen {s : State} (h : s.blockInv) (ha : s.rdAvail = true) : MovesUnseen store2 s := by
  obtain ⟨-, hcur, -, hlag, -⟩ := h
  have hne := s.head_ne_tail_of_rdAvail hcur hlag ha
  obtain ⟨hhead, -⟩ := hcur
  obtain ⟨t, ht⟩ := store2_answers hhead
  rcases store2_cases ht with rfl | ⟨b, -, rfl⟩
  · exact movesUnseen_of_same ht ha
  · exact ⟨_, _, _, ht, ha, Memory.read_write_other _ b hne.symm⟩

/-- STORE.3 moves `head` on into the room STORE.1 found, so not onto `tail`. -/
theorem store3_movesUnseen {s : State} (h : s.blockInv) (ha : s.rdAvail = true) : MovesUnseen store3 s := by
  obtain ⟨-, hcur, -, hlag, -, ⟨hroom, -⟩, -⟩ := h
  obtain ⟨t, ht⟩ := store3_answers s
  rcases store3_cases ht with rfl | ⟨hp, rfl⟩
  · exact movesUnseen_of_same ht ha
  · have hne := s.inc_head_ne_tail_of_not_full hcur hlag (hroom (by simp [hp]))
    exact ⟨_, _, _, ht, State.rdAvail_publish hne ha .idle, rfl⟩

/-- TAKE.1, where C sees a byte, does not fault. -/
theorem take1_moves {s : State} (h : s.blockInv) (ha : s.rdAvail = true) :
    ∃ tl c rd rf, take1 s = .next (s.withConsumer tl c rd rf) := by
  obtain ⟨t, ht⟩ := take1_answers h
  rcases take1_cases ht with ⟨-, rfl⟩ | ⟨-, ha', -⟩ | ⟨-, -, v, -, rfl⟩
  · exact ⟨s.tail, s.cPhase, s.rdLog, _, ht⟩
  · cases ha.symm.trans ha'
  · exact ⟨s.tail, _, s.rdLog, s.refused, ht⟩

theorem take2_moves (s : State) : ∃ tl c rd rf, take2 s = .next (s.withConsumer tl c rd rf) := by
  obtain ⟨t, ht⟩ := take2_answers s
  rcases take2_cases ht with rfl | ⟨v, -, rfl⟩
  · exact ⟨_, _, _, _, ht⟩
  · exact ⟨_, _, _, s.refused, ht⟩

theorem take1_comm {P : State → Out} {s : State} (h : s.blockInv) (ha : s.rdAvail = true) (hP : MovesUnseen P s)
    (hPC : ∀ tl c rd rf, P (s.withConsumer tl c rd rf) = onNext (State.withConsumer · tl c rd rf) (P s)) :
    andThen (P s) take1 = andThen (take1 s) P := by
  obtain ⟨m, hd, p, hmove, ha', hv⟩ := hP
  obtain ⟨tl, c, rd, rf, htake⟩ := take1_moves h ha
  exact andThen_comm_of_parts hmove htake (take1_withProducer ha ha' hv) (hPC tl c rd rf)

theorem take2_comm {P : State → Out} {s : State} (hP : MovesUnseen P s)
    (hPC : ∀ tl c rd rf, P (s.withConsumer tl c rd rf) = onNext (State.withConsumer · tl c rd rf) (P s)) :
    andThen (P s) take2 = andThen (take2 s) P := by
  obtain ⟨m, hd, p, hmove, -, -⟩ := hP
  obtain ⟨tl, c, rd, rf, htake⟩ := take2_moves s
  exact andThen_comm_of_parts hmove htake (take2_withProducer s m hd p) (hPC tl c rd rf)

/-- Settles O50: STORE.2 and STORE.3 do not look at what C's micro-steps write, and leave what TAKE.1 looks at. -/
theorem storeAndTakeCommute : Obligations.StoreAndTakeCommute := by
  rintro s ⟨h, -⟩ - - hne
  have ha := rdAvail_iff.mpr hne
  have h2 := store2_movesUnseen h ha
  have h3 := store3_movesUnseen h ha
  exact ⟨take1_comm h ha h2 (store2_withConsumer s), take1_comm h ha h3 (store3_withConsumer s),
    take2_comm h2 (store2_withConsumer s), take2_comm h3 (store3_withConsumer s)⟩

end Sys2Proof.Machine
end

section
/-! PROOFS. The decoder and the encoder, and what a placed and a reserved word do (O1, O2, O3, O5, O6). -/

namespace Sys2Proof

/-! ### A word is its opcode nibble and its data field -/

/-- `op[11:8]`, the opcode nibble (R95): the port and the operation's number within it (R90). -/
def opNibble (w : OpWord) : BitVec 4 := w.extractLsb' 8 4

@[simp] theorem opNibble_append (n : BitVec 4) (d : Byte) : opNibble (n ++ d) = n :=
  (BitVec.extractLsb'_append_eq_of_le (by decide)).trans BitVec.extractLsb'_eq_self

@[simp] theorem dataField_append (n : BitVec 4) (d : Byte) : dataField (n ++ d) = d :=
  (BitVec.extractLsb'_append_eq_of_add_le (by decide)).trans BitVec.extractLsb'_eq_self

theorem opNibble_append_dataField (w : OpWord) : opNibble w ++ dataField w = w :=
  (BitVec.extractLsb'_append_extractLsb'_eq_extractLsb' rfl).trans BitVec.extractLsb'_eq_self

theorem word_eq_iff {v w : OpWord} : v = w ↔ opNibble v = opNibble w ∧ dataField v = dataField w := by
  refine ⟨fun h => h ▸ ⟨rfl, rfl⟩, fun ⟨hn, hd⟩ => ?_⟩
  rw [← opNibble_append_dataField v, hn, hd, opNibble_append_dataField]

@[simp] theorem dataField_encode (i : Instr) : dataField (encode i) = instrData i := dataField_append _ _

/-! ### The rows of the opcode map (R94) -/

/-- Every row asks for its whole nibble, and for no data field in particular (format D) or for the zero one (format Z)
(R92, R94). -/
theorem row_format : ∀ r ∈ opcodeRows, opNibble r.mask = .allOnes 4 ∧ dataField r.pattern = 0 ∧
    (dataField r.mask = 0 ∨ dataField r.mask = .allOnes 8) := by decide

/-- No two rows have the same nibble, so the rows are disjoint (R94). -/
theorem row_nibbles_nodup : (opcodeRows.map fun r => opNibble r.pattern).Nodup := by decide

/-- A row selects the words with its nibble, in format Z those with a zero data field only. -/
theorem rowSelects_iff {r : Row} (hr : r ∈ opcodeRows) (w : OpWord) :
    rowSelects r w = true ↔ opNibble w = opNibble r.pattern ∧ (dataField r.mask = 0 ∨ dataField w = 0) := by
  obtain ⟨hnibble, hpattern, hformat⟩ := row_format r hr
  have hfields : rowSelects r w = true ↔
      opNibble w &&& opNibble r.mask = opNibble r.pattern ∧ dataField w &&& dataField r.mask = dataField r.pattern := by
    rw [rowSelects, beq_iff_eq, word_eq_iff]
    simp only [opNibble, dataField, BitVec.extractLsb'_and]
  rw [hfields, hnibble, hpattern, BitVec.and_allOnes]
  rcases hformat with hD | hZ
  · simp [hD]
  · rw [hZ, BitVec.and_allOnes]
    simp

theorem selectingRows_length_le_one (w : OpWord) : (opcodeRows.filter (rowSelects · w)).length ≤ 1 :=
  calc (opcodeRows.filter (rowSelects · w)).length
      = opcodeRows.countP (rowSelects · w) := List.countP_eq_length_filter.symm
    _ ≤ opcodeRows.countP fun r => opNibble r.pattern == opNibble w :=
        List.countP_mono_left fun r hr h => beq_iff_eq.mpr ((rowSelects_iff hr w).mp h).1.symm
    _ = (opcodeRows.map fun r => opNibble r.pattern).count (opNibble w) := by
        rw [List.count_eq_countP, List.countP_map]
        rfl
    _ ≤ 1 := List.nodup_iff_count_le_one.mp row_nibbles_nodup _

theorem row_unique {r r' : Row} {w : OpWord} (hr : r ∈ opcodeRows) (hr' : r' ∈ opcodeRows)
    (h : rowSelects r w = true) (h' : rowSelects r' w = true) : r = r' :=
  List.inj_on_of_nodup_map row_nibbles_nodup hr hr'
    (((rowSelects_iff hr w).mp h).1.symm.trans ((rowSelects_iff hr' w).mp h').1)

/-! ### What the decoder answers -/

/-- The row the decoder finds is the one that selects the word. -/
theorem find?_rowSelects_iff {w : OpWord} {r : Row} :
    opcodeRows.find? (rowSelects · w) = some r ↔ r ∈ opcodeRows ∧ rowSelects r w = true := by
  constructor
  · intro hfind
    exact ⟨List.mem_of_find?_eq_some hfind, List.find?_some (p := (rowSelects · w)) hfind⟩
  · rintro ⟨hr, hsel⟩
    cases hfind : opcodeRows.find? (rowSelects · w) with
    | none => exact absurd hsel (List.find?_eq_none.mp hfind r hr)
    | some r' =>
      have hsel' := List.find?_some (p := (rowSelects · w)) hfind
      rw [row_unique hr (List.mem_of_find?_eq_some hfind) hsel hsel']

theorem decode_eq_ok_iff {w : OpWord} {i : Instr} :
    decode w = .ok i ↔ ∃ r ∈ opcodeRows, rowSelects r w = true ∧ r.build (dataField w) = i := by
  have hfind : decode w = .ok i ↔ ∃ r, opcodeRows.find? (rowSelects · w) = some r ∧ r.build (dataField w) = i := by
    rw [decode]
    cases opcodeRows.find? (rowSelects · w) <;> simp
  simp only [hfind, find?_rowSelects_iff, and_assoc]

theorem reserved_iff_forall_row {w : OpWord} : reserved w = true ↔ ∀ r ∈ opcodeRows, rowSelects r w ≠ true := by
  simp [reserved]

theorem reserved_iff_decode {w : OpWord} : reserved w = true ↔ decode w = .error (.illegalOp w) := by
  rw [reserved_iff_forall_row, ← List.find?_eq_none, decode]
  cases opcodeRows.find? (rowSelects · w) <;> simp

/-- The reserved words by nibble and data field: no row has the nibble, or a row of format Z has it and the data field is not
zero (R95). -/
theorem reserved_iff_fields {w : OpWord} :
    reserved w = true ↔ opNibble w ∈ ([2, 3, 5, 6, 7, 10, 11, 13, 14, 15] : List (BitVec 4)) ∨
      (opNibble w ∈ ([0, 1, 8, 9] : List (BitVec 4)) ∧ dataField w ≠ 0) := by
  have hrows : reserved w = true ↔
      ∀ r ∈ opcodeRows, ¬(opNibble w = opNibble r.pattern ∧ (dataField r.mask = 0 ∨ dataField w = 0)) := by
    rw [reserved_iff_forall_row]
    exact forall₂_congr fun r hr => not_congr (rowSelects_iff hr w)
  rw [hrows]
  generalize opNibble w = n
  by_cases hdata : dataField w = 0
  · simp only [hdata]
    revert n
    decide
  · simp only [hdata, ne_eq, not_false_eq_true]
    revert n
    decide

/-! ### Decoding and encoding -/

/-- The word a row gives an operand: its nibble, and the operand in format D, zero in format Z (R92, R94). -/
def rowWord (r : Row) (d : Byte) : OpWord := opNibble r.pattern ++ (if dataField r.mask = 0 then d else 0)

theorem rowSelects_iff_rowWord {r : Row} (hr : r ∈ opcodeRows) (w : OpWord) :
    rowSelects r w = true ↔ rowWord r (dataField w) = w := by
  rw [rowSelects_iff hr, word_eq_iff, rowWord, opNibble_append, dataField_append]
  refine and_congr eq_comm ?_
  by_cases hD : dataField r.mask = 0
  · rw [if_pos hD]
    exact iff_of_true (.inl hD) rfl
  · rw [if_neg hD, or_iff_right hD, eq_comm]

theorem encode_build {r : Row} (hr : r ∈ opcodeRows) (d : Byte) : encode (r.build d) = rowWord r d := by
  simp only [opcodeRows, List.mem_cons, List.not_mem_nil, or_false] at hr
  rcases hr with rfl | rfl | rfl | rfl | rfl | rfl <;>
    simp [encode, instrPort, instrFunct, instrData, portCode, rowWord, opNibble, dataField]

theorem exists_row_build (i : Instr) : ∃ r ∈ opcodeRows, r.build (dataField (encode i)) = i := by
  cases i <;> simp [opcodeRows, instrData]

/-- The word of an operation is the one its row gives, so that row selects it. -/
theorem decode_encode (i : Instr) : decode (encode i) = .ok i := by
  obtain ⟨r, hr, hbuild⟩ := exists_row_build i
  have hword := encode_build hr (dataField (encode i))
  rw [hbuild] at hword
  exact decode_eq_ok_iff.mpr ⟨r, hr, (rowSelects_iff_rowWord hr _).mpr hword.symm, hbuild⟩

theorem encode_of_decode {w : OpWord} {i : Instr} (h : decode w = .ok i) : encode i = w := by
  obtain ⟨r, hr, hsel, rfl⟩ := decode_eq_ok_iff.mp h
  exact (encode_build hr _).trans ((rowSelects_iff_rowWord hr w).mp hsel)

theorem Instr.wellFormed_eq_true (i : Instr) : i.wellFormed = true := by cases i <;> rfl

theorem decodeTableWord_eq_some_iff {nbits w : Nat} {i : Instr} :
    decodeTableWord nbits w = some i ↔ w % 2 ^ nbits < 2 ^ 12 ∧ decode (BitVec.ofNat 12 (w % 2 ^ nbits)) = .ok i := by
  rw [decodeTableWord]
  by_cases hlt : w % 2 ^ nbits < 2 ^ 12
  · rw [if_pos hlt, and_iff_right hlt]
    cases decode (BitVec.ofNat 12 (w % 2 ^ nbits)) <;> simp
  · rw [if_neg hlt]
    exact iff_of_false (by simp) fun h => hlt h.1

/-- A table word of at least 12 bits holds an operation word as it stands (R97). -/
theorem decodeTableWord_toNat {nbits : Nat} (hbits : 12 ≤ nbits) (w : OpWord) {i : Instr} (h : decode w = .ok i) :
    decodeTableWord nbits w.toNat = some i := by
  have hmod : w.toNat % 2 ^ nbits = w.toNat :=
    Nat.mod_eq_of_lt (w.isLt.trans_le (Nat.pow_le_pow_right (by decide) hbits))
  rw [decodeTableWord_eq_some_iff, hmod, BitVec.ofNat_toNat, BitVec.setWidth_eq]
  exact ⟨w.isLt, h⟩

/-- Settles O1: an operation's word is its row's word (`encode_build`), and a row selects no other word with that data field
(`rowSelects_iff_rowWord`). -/
theorem decodeEncodeAgree : Obligations.DecodeEncodeAgree :=
  ⟨fun i w => ⟨fun h => ⟨i.wellFormed_eq_true, encode_of_decode h⟩, fun ⟨_, h⟩ => h ▸ decode_encode i⟩,
    fun i => decodeTableWord_toNat (by decide) (encode i) (decode_encode i)⟩

/-- Settles O2: each of the six words is the one the encoder gives its operation, so it decodes to it (`decode_encode`). -/
theorem sampleWordsDecode : Obligations.SampleWordsDecode :=
  ⟨decode_encode .nop, decode_encode .reset, decode_encode (.store 0x41), decode_encode .avail, decode_encode .take,
    decode_encode (.send 0x0D)⟩

/-- Settles O3: the fields of the words no row selects (`reserved_iff_fields`), and the rows' nibbles differ
(`selectingRows_length_le_one`). -/
theorem reservedWordsAreTheRest : Obligations.ReservedWordsAreTheRest := fun w =>
  ⟨reserved_iff_decode.symm.trans reserved_iff_fields, reserved_iff_decode, selectingRows_length_le_one w⟩

end Sys2Proof

namespace Sys2Proof.Machine

/-! ### A placed word, and a reserved word -/

/-- Settles O5: the placed word stands first in the schedule and decodes to `i`, so the step runs it
(`stepRunsDecodedWord`). -/
theorem fetchWordRunsNext : Obligations.FetchWordRunsNext := by
  intro s nbits w i hdec hbare hisr hsoft
  obtain ⟨hword, hdec⟩ := decodeTableWord_eq_some_iff.mp hdec
  rw [State.withFetchWord, placeWord, if_pos hword]
  obtain ⟨henabled, hrun⟩ := stepRunsDecodedWord { s with sched := .word _ :: s.sched } _ i s.sched rfl hdec hbare
  exact hrun (henabled.mpr ⟨hisr, hsoft⟩)

theorem State.refuse_eq (c : RefusalCause) (s : State) :
    s.refuse c = { s with refused := if s.refused = none then some c else s.refused } := by
  cases h : s.refused <;> simp [State.refuse, h]

theorem runItem_reserved {w : OpWord} (h : reserved w = true) (s : State) :
    runItem (.word w) s = .next (s.refuse (.illegalOp w)) := by
  simp [runItem, runWord, reserved_iff_decode.mp h]

/-- A reserved word is quiet (R95), so only a contiguous STORE holds it. -/
theorem enabled_reserved {w : OpWord} (h : reserved w = true) {s : State} (hisr : s.isrHolds = false) :
    enabled s (.word w) = true := by
  have hquiet : quietItem (.word w) = true := by simp [quietItem, reserved_iff_decode.mp h]
  exact (enabled_iff s _).mpr ⟨rfl, (waitsForStore_eq_false_iff s _).mpr (.inl hisr), by simp [waitsForCall, hquiet]⟩

/-- Settles O6: the decoder's answer is the refusal (`runItem_reserved`), and as the first item nothing holds the word
(`enabled_reserved`). -/
theorem reservedWordRefused : Obligations.ReservedWordRefused := by
  intro s w hres
  refine ⟨?_, fun rest hsched hbare hisr => step_first hbare hsched (enabled_reserved hres hisr)⟩
  rw [runItem_reserved hres, State.refuse_eq]

end Sys2Proof.Machine
end

section
/-! PROOFS. The micro-steps and operations of the FIFO, each on its own (O15 to O19, O21 to O26). -/

namespace Sys2Proof.Machine

/-! ### What the invariant of the block says of the cursors -/

theorem State.blockInv.cursors {s : State} (h : s.blockInv) : s.cursorsInRange := by
  obtain ⟨-, hcur, -⟩ := h
  exact hcur

/-- What C sees as not empty is not empty (R73). -/
theorem State.blockInv.head_ne_tail {s : State} (h : s.blockInv) (ha : s.rdAvail = true) : s.head ≠ s.tail := by
  obtain ⟨-, hcur, -, hlag, -⟩ := h
  exact s.head_ne_tail_of_rdAvail hcur hlag ha

/-- Where P sees room, there is room (R73). -/
theorem State.blockInv.inc_head_ne_tail {s : State} (h : s.blockInv) (hf : s.full = false) :
    inc s.cfg.n s.head ≠ s.tail := by
  obtain ⟨-, hcur, -, hlag, -⟩ := h
  exact s.inc_head_ne_tail_of_not_full hcur hlag hf

/-- A STORE in progress keeps the room its STORE.1 found (R28, R65). -/
theorem State.blockInv.not_full_of_busy {s : State} (h : s.blockInv) (hp : s.pPhase ≠ .idle) : s.full = false := by
  obtain ⟨-, -, -, -, -, ⟨hroom, -⟩, -⟩ := h
  exact hroom hp

/-- A TAKE in progress has something to take (R29). -/
theorem State.blockInv.rdAvail_of_adv {s : State} (h : s.blockInv) {v : Byte} (hc : s.cPhase = .adv v) :
    s.rdAvail = true := by
  obtain ⟨-, -, -, -, -, -, htake, -⟩ := h
  exact (State.takePending_iff.mp htake v hc).1

theorem State.occ_eq_zero_iff {s : State} (hcur : s.cursorsInRange) : s.occ = 0 ↔ s.head = s.tail := by
  obtain ⟨hhead, htail, -, -⟩ := hcur
  rw [State.occ, dist_eq_zero_iff htail hhead, eq_comm]

/-- With XD_LAG = 0 C sees an empty buffer exactly where it is empty (R31). -/
theorem State.rdAvail_eq_false_iff_occ {s : State} (hcur : s.cursorsInRange) (hx : s.cfg.xdLag = false) :
    s.rdAvail = false ↔ s.occ = 0 := by
  rw [s.occ_eq_zero_iff hcur, ← headC_direct hx]
  simp [State.rdAvail]

/-- With XD_LAG = 0 P sees a full buffer exactly where it holds N - 1 bytes (R31, R59). -/
theorem State.full_iff_occ {s : State} (hcur : s.cursorsInRange) (hx : s.cfg.xdLag = false) :
    s.full = true ↔ s.occ = s.cfg.usable := by
  obtain ⟨hhead, htail, -, -⟩ := hcur
  rw [full_iff, tailP_direct hx]
  exact (dist_eq_pred_iff htail hhead).symm

/-! ### STORE (R111 to R113) -/

/-- On a buffer P sees as full STORE.1 counts a drop and nothing else (R111). -/
theorem store1_of_full {b : Byte} {s : State} (hi : s.inited = true) (hp : s.pPhase = .idle) (hf : s.full = true) :
    store1 b s = { s with drops := s.drops + 1 } := by
  simp only [store1, storeRefusal_none.mpr ⟨hi, hp⟩, hf, if_true]
  rw [← hp]

/-- STORE.2 finds its entry where `head` is in range (R112). -/
theorem store2_of_write {b : Byte} {s : State} (hp : s.pPhase = .write b) (hhead : s.head < s.cfg.n) :
    store2 s = .next { s with storage := s.storage.write s.head b, pPhase := .publish } := by
  simp [store2, hp, storeEntry_eq_next.mpr ⟨hhead, rfl⟩]

theorem store3_of_publish {s : State} (hp : s.pPhase = .publish) :
    store3 s = .next { s with head := s.succ s.head, pPhase := .idle } := by simp [store3, hp]

/-- A STORE on a full buffer ends with STORE.1's drop (R111, R220). -/
theorem execStore_of_full {b : Byte} {s : State} (hi : s.inited = true) (hp : s.pPhase = .idle) (hf : s.full = true) :
    execStore b s = .next { s with drops := s.drops + 1 } := by
  have hacc : storeAccepted b s = false := by simp [storeAccepted, hf]
  rw [execStore_of_not_accepted hacc, store1_of_full hi hp hf]

/-- A STORE on a buffer with room completes. -/
theorem execStore_of_room (b : Byte) {s : State} (h : s.blockInv) (hi : s.inited = true) (hp : s.pPhase = .idle)
    (hf : s.full = false) :
    execStore b s = .next { s with storage := s.storage.write s.head b, head := s.succ s.head } := by
  obtain ⟨t, ht⟩ := execStore_answers b h
  rw [ht, execStore_of_accepted (storeAccepted_iff.mpr ⟨hi, hp, hf⟩) ht]

/-- Such a STORE appends its byte to the contents (R26). -/
theorem State.blockInv.contents_store {s : State} (h : s.blockInv) (hf : s.full = false) (b : Byte) :
    { s with storage := s.storage.write s.head b, head := s.succ s.head }.contents = s.contents ++ [some b] := by
  have hroom := h.inc_head_ne_tail hf
  obtain ⟨hhead, htail, -, -⟩ := h.cursors
  have hwrite := s.contents_writeData hhead htail b s.pPhase
  have hpublish := State.contents_publish (s := { s with storage := s.storage.write s.head b }) hhead htail hroom s.pPhase
  rw [Memory.read_write_same] at hpublish
  exact hpublish.trans (congrArg (· ++ [some b]) hwrite)

/-- Settles O15: after `init` and with P idle STORE.1 is not refused, so the full test alone decides. -/
theorem store1TestsFull : Obligations.Store1TestsFull := by
  intro s b hi hp
  refine ⟨fun hfull => ?_, fun hroom => ?_⟩
  · rw [runItem, store1_of_full hi hp (full_iff.mpr hfull)]
  · rw [runItem, store1_of_accepted (storeAccepted_iff.mpr ⟨hi, hp, not_full_iff.mpr hroom⟩)]

/-- Settles O16: the write is at `head` and at no other entry, and neither `rd_avail` nor `occ` reads storage. -/
theorem store2WritesAtHead : Obligations.Store2WritesAtHead := fun s b hp hhead =>
  ⟨_, store2_of_write hp hhead, rfl, s.storage.read_write_same _ _, fun _ => s.storage.read_write_other b, rfl, rfl⟩

/-- Settles O17: STORE.3 advances `head` into the room STORE.1 found, so not onto `tail`. -/
theorem store3PublishesHead : Obligations.Store3PublishesHead := by
  rintro s ⟨h, -⟩ hp
  have hne := h.inc_head_ne_tail (h.not_full_of_busy (by simp [hp]))
  obtain ⟨hhead, htail, -, -⟩ := h.cursors
  exact ⟨_, store3_of_publish hp, rfl, dist_inc_right htail hhead hne, hne⟩

/-- Settles O18: the STORE completes (`execStore_of_room`) and appends (`State.blockInv.contents_store`). -/
theorem storeAppendsByte : Obligations.StoreAppendsByte := by
  rintro s b ⟨h, -⟩ hi hp hroom
  have hf := not_full_iff.mpr hroom
  exact ⟨_, execStore_of_room b h hi hp hf, rfl, h.contents_store hf b⟩

/-- Settles O19: the STORE is not accepted, and its STORE.1 is the drop. -/
theorem storeOnFullDropsNewest : Obligations.StoreOnFullDropsNewest := fun _ _ hi hp hfull =>
  execStore_of_full hi hp (full_iff.mpr hfull)

/-! ### AVAIL (R114) -/

theorem execAvail_of_idle {s : State} {bit : Bool} (ha : s.rdAvail = bit) (hc : s.cPhase = .idle) :
    execAvail s = .next (s.returnRd (.avail bit)) := by simp [execAvail, hc, ha]

theorem State.rdAvail_eq_decide (s : State) : s.rdAvail = decide (s.headC ≠ s.tail) := by
  rw [Bool.eq_iff_iff, rdAvail_iff, decide_eq_true_iff]

/-- Settles O21: with C idle AVAIL is not refused, and returns C's comparison. -/
theorem availReturnsNonEmpty : Obligations.AvailReturnsNonEmpty := fun s => execAvail_of_idle s.rdAvail_eq_decide

/-- Settles O22: a step without RESET is a chain of changes, of which only TAKE.2, which returns a byte, can make C see an
empty buffer again (`Micros.rdAvail_or_taken`). -/
theorem availStaysTrueUntilTake : Obligations.AvailStaysTrueUntilTake := by
  rintro s t ⟨h, -⟩ hno ha hstep
  have hchain : Micros false s t := step_micro_noReset (fun ⟨hreset, _⟩ => hno hreset) t hstep
  exact hchain.rdAvail_or_taken h ha

/-! ### TAKE (R115 to R117) -/

theorem State.raiseFault_eq (c : FaultCause) (s : State) :
    s.raiseFault c = { s with fault := if s.fault = none then some c else s.fault } := by
  rw [State.raiseFault, orElse_eq_ite]

theorem take1_of_empty {s : State} (hc : s.cPhase = .idle) (ha : s.rdAvail = false) :
    take1 s = .next (s.raiseFault (.takeEmpty s.head s.tail)) := by simp [take1, hc, ha]

/-- A TAKE that faults ends with its TAKE.1 (R116). -/
theorem execTake_of_empty {s : State} (hc : s.cPhase = .idle) (ha : s.rdAvail = false) :
    execTake s = .next (s.raiseFault (.takeEmpty s.head s.tail)) := by
  have hacc : takeAccepted s = false := by simp [takeAccepted, ha]
  simp [execTake, hacc, take1_of_empty hc ha]

/-- A TAKE on a buffer C sees as not empty completes: it returns the byte of the entry at `tail`, which holds one. -/
theorem execTake_of_rdAvail {s : State} (h : s.blockInv) (hc : s.cPhase = .idle) (ha : s.rdAvail = true) :
    ∃ v, s.storage.read s.tail = some v ∧ execTake s = .next ({ s with tail := s.succ s.tail }.returnRd (.byte v)) := by
  obtain ⟨t, ht⟩ := execTake_answers h
  rcases execTake_cases ht with ⟨hc', -⟩ | ⟨-, ha', -⟩ | ⟨-, -, v, hv, rfl⟩
  · exact absurd hc hc'
  · cases ha.symm.trans ha'
  · exact ⟨v, hv, ht⟩

/-- The byte such a TAKE returns leaves the contents at the front (R26). -/
theorem State.blockInv.contents_take {s : State} (h : s.blockInv) (ha : s.rdAvail = true) {v : Byte}
    (hv : s.storage.read s.tail = some v) :
    s.contents = some v :: ({ s with tail := s.succ s.tail }.returnRd (.byte v)).contents := by
  obtain ⟨hhead, htail, -, -⟩ := h.cursors
  rw [← hv]
  exact State.contents_takeAdvance hhead htail (h.head_ne_tail ha) s.cPhase

/-- Settles O23: the entry at `tail` is the first of the contents (`State.blockInv.exists_read_tail`), so TAKE.1 finds its
byte. -/
theorem take1ReadsTail : Obligations.Take1ReadsTail := by
  rintro s ⟨h, -⟩ hc hne
  have ha := rdAvail_iff.mpr hne
  obtain ⟨v, hv⟩ := h.exists_read_tail ha
  obtain ⟨-, htail, -, -⟩ := h.cursors
  exact ⟨v, hv, (take1_of_rdAvail hc ha).trans (loadEntry_eq_next.mpr ⟨htail, v, hv, rfl⟩)⟩

/-- Settles O24: C sees an empty buffer, so TAKE.1 faults before any read, and TAKE with it. -/
theorem takeOnEmptyFaults : Obligations.TakeOnEmptyFaults := by
  intro s hc hempty
  have ha : s.rdAvail = false := by simp [State.rdAvail, hempty]
  rw [← State.raiseFault_eq]
  exact ⟨execTake_of_empty hc ha, take1_of_empty hc ha⟩

/-- Settles O25: a TAKE in progress has its byte, so advancing `tail` lowers `occ` by one, and a buffer that lost a byte is
not full. -/
theorem take2AdvancesTail : Obligations.Take2AdvancesTail := by
  rintro s v ⟨h, -⟩ hc
  have hcur := ((Micro.takeAdvance (r := false) s v hc).blockInv h).cursors
  have hne := h.head_ne_tail (h.rdAvail_of_adv hc)
  obtain ⟨hhead, htail, -, -⟩ := h.cursors
  have hocc : dist s.cfg.n (inc s.cfg.n s.tail) s.head + 1 = s.occ := dist_inc_left htail hhead hne.symm
  refine ⟨_, take2_of_adv hc, rfl, hocc, fun hx => ⟨State.rdAvail_eq_false_iff_occ hcur hx, ?_⟩⟩
  refine Bool.eq_false_iff.mpr fun hfull => ?_
  have hocc' : dist s.cfg.n (inc s.cfg.n s.tail) s.head = s.cfg.n - 1 := (State.full_iff_occ hcur hx).mp hfull
  have hlt : s.occ < s.cfg.n := dist_lt (by omega) s.tail s.head
  omega

/-- Settles O26: the TAKE completes (`execTake_of_rdAvail`) with the first of the contents
(`State.blockInv.contents_take`). -/
theorem takeReturnsOldest : Obligations.TakeReturnsOldest := by
  rintro s ⟨h, -⟩ hc hne
  have ha := rdAvail_iff.mpr hne
  obtain ⟨v, hv, htake⟩ := execTake_of_rdAvail h hc ha
  exact ⟨v, _, h.contents_take ha hv, htake, rfl⟩

end Sys2Proof.Machine
end

section
/-! PROOFS. Bare operations one after the other: what was stored comes back in order, and an overflow drops the newest
(O51, O52). -/

namespace Sys2Proof.Machine

/-! ### Runs of bare operations -/

theorem runAll_cons_next {i : Instr} {is : List Instr} {s t u : State} (h : exec i s = .next t)
    (hrest : runAll is t = .next u) : runAll (i :: is) s = .next u := by
  rw [runAll, h, andThen_next, hrest]

theorem runAll_singleton_next {i : Instr} {s t : State} (h : exec i s = .next t) : runAll [i] s = .next t :=
  runAll_cons_next h rfl

theorem runAll_append_next {is js : List Instr} {s t u : State} (h : runAll is s = .next t)
    (hrest : runAll js t = .next u) : runAll (is ++ js) s = .next u := by
  induction is generalizing s with
  | nil => cases h; exact hrest
  | cons i is ih =>
    obtain ⟨v, hv, his⟩ := andThen_eq_next.mp h
    exact runAll_cons_next hv (ih his)

theorem exec_blockInv {i : Instr} {s t : State} (h : s.blockInv) (ht : exec i s = .next t) : t.blockInv :=
  Micros.blockInv (exec_micro i (.inl rfl) s t ht) h

theorem runAll_blockInv {is : List Instr} {s t : State} (h : s.blockInv) (ht : runAll is s = .next t) : t.blockInv := by
  induction is generalizing s with
  | nil => cases ht; exact h
  | cons i is ih =>
    obtain ⟨u, hu, his⟩ := andThen_eq_next.mp ht
    exact ih (exec_blockInv h hu) his

/-! ### Runs of STOREs and of TAKEs -/

theorem State.length_contents (s : State) : s.contents.length = s.occ := by simp [State.contents]

theorem State.contents_eq_nil_iff {s : State} : s.contents = [] ↔ s.occ = 0 := by
  rw [← s.length_contents, List.length_eq_zero_iff]

/-- With XD_LAG = 0 C sees a byte exactly where there is one (R31). -/
theorem State.rdAvail_iff_contents {s : State} (hcur : s.cursorsInRange) (hx : s.cfg.xdLag = false) :
    s.rdAvail = true ↔ s.contents ≠ [] := by
  rw [← Bool.not_eq_false, State.rdAvail_eq_false_iff_occ hcur hx, Ne, State.contents_eq_nil_iff]

/-- As many STOREs as there is room for append their bytes, and change P's part only. -/
theorem runAll_stores (bytes : List Byte) {s : State} (h : s.blockInv) (hx : s.cfg.xdLag = false)
    (hi : s.inited = true) (hp : s.pPhase = .idle) (hfits : s.occ + bytes.length ≤ s.cfg.usable) :
    ∃ m hd, runAll (bytes.map .store) s = .next (s.withProducer m hd s.pPhase) ∧
      (s.withProducer m hd s.pPhase).contents = s.contents ++ bytes.map some := by
  induction bytes generalizing s with
  | nil => exact ⟨s.storage, s.head, rfl, (List.append_nil _).symm⟩
  | cons b bytes ih =>
    rw [List.length_cons] at hfits
    have hf : s.full = false := Bool.eq_false_iff.mpr fun hfull => by
      have := (State.full_iff_occ h.cursors hx).mp hfull
      omega
    have hstore : exec (.store b) s = _ := execStore_of_room b h hi hp hf
    have hcontents := h.contents_store hf b
    have hfits' : s.occ + 1 + bytes.length ≤ s.cfg.usable := by omega
    obtain ⟨m, hd, hrun, hall⟩ := ih (exec_blockInv h hstore) hx hi hp (by
      rwa [← State.length_contents, hcontents, List.length_append, State.length_contents])
    refine ⟨m, hd, runAll_cons_next hstore hrun, hall.trans ?_⟩
    rw [hcontents, List.append_assoc]
    rfl

/-- As many TAKEs as there are bytes return them, oldest first, and change C's part only. -/
theorem runAll_takes (bytes : List Byte) {s : State} {rest : List (Option Byte)} (h : s.blockInv)
    (hx : s.cfg.xdLag = false) (hc : s.cPhase = .idle) (hcontents : s.contents = bytes.map some ++ rest) :
    ∃ tl, runAll (List.replicate bytes.length .take) s =
        .next (s.withConsumer tl s.cPhase (s.rdLog ++ bytes.map .byte) s.refused) ∧
      (s.withConsumer tl s.cPhase (s.rdLog ++ bytes.map .byte) s.refused).contents = rest := by
  induction bytes generalizing s with
  | nil => exact ⟨s.tail, by rw [List.map_nil, List.append_nil]; rfl, hcontents⟩
  | cons b bytes ih =>
    have ha := (State.rdAvail_iff_contents h.cursors hx).mpr (by simp [hcontents])
    obtain ⟨v, hv, htake⟩ := execTake_of_rdAvail h hc ha
    obtain ⟨hvb, hrest⟩ := List.cons_eq_cons.mp ((h.contents_take ha hv).symm.trans hcontents)
    cases hvb
    obtain ⟨tl, hrun, hleft⟩ := ih (exec_blockInv (i := .take) h htake) hx hc hrest
    rw [State.returnRd_rdLog, List.append_assoc] at hrun hleft
    exact ⟨tl, runAll_cons_next htake hrun, hleft⟩

/-- AVAIL answers 1 before the first TAKE and 0 after the last, where the buffer is empty. -/
theorem runAll_avail_takes_avail {bytes : List Byte} {s : State} (h : s.blockInv) (hx : s.cfg.xdLag = false)
    (hc : s.cPhase = .idle) (hcontents : s.contents = bytes.map some) (hne : bytes ≠ []) :
    ∃ tl, runAll ([.avail] ++ List.replicate bytes.length .take ++ [.avail]) s = .next (s.withConsumer tl s.cPhase
        (s.rdLog ++ [.avail true] ++ bytes.map .byte ++ [.avail false]) s.refused) ∧ s.head = tl := by
  have ha := (State.rdAvail_iff_contents h.cursors hx).mpr (by simp [hcontents, hne])
  have havail : exec .avail s = .next (s.returnRd (.avail true)) := execAvail_of_idle ha hc
  have h' := exec_blockInv h havail
  obtain ⟨tl, htakes, hleft⟩ := runAll_takes bytes h' hx hc (hcontents.trans (List.append_nil _).symm)
  have hcur := (runAll_blockInv h' htakes).cursors
  have hempty := State.contents_eq_nil_iff.mp hleft
  have hlast := execAvail_of_idle ((State.rdAvail_eq_false_iff_occ hcur hx).mpr hempty) hc
  exact ⟨tl, runAll_append_next (runAll_append_next (runAll_singleton_next havail) htakes) (runAll_singleton_next hlast),
    (State.occ_eq_zero_iff hcur).mp hempty⟩

/-- Into an empty buffer the STOREs leave their bytes as the contents. -/
theorem runAll_stores_of_empty {bytes : List Byte} {s : State} (h : s.blockInv) (hx : s.cfg.xdLag = false)
    (hi : s.inited = true) (hp : s.pPhase = .idle) (hempty : s.head = s.tail) (hcap : bytes.length ≤ s.cfg.usable) :
    ∃ m hd, runAll (bytes.map .store) s = .next (s.withProducer m hd s.pPhase) ∧
      (s.withProducer m hd s.pPhase).blockInv ∧ (s.withProducer m hd s.pPhase).contents = bytes.map some := by
  have hocc := (State.occ_eq_zero_iff h.cursors).mpr hempty
  obtain ⟨m, hd, hstores, hcontents⟩ := runAll_stores bytes h hx hi hp (by omega)
  rw [State.contents_eq_nil_iff.mpr hocc, List.nil_append] at hcontents
  exact ⟨m, hd, hstores, runAll_blockInv h hstores, hcontents⟩

/-- Settles O51: the STOREs leave the bytes as the contents (`runAll_stores_of_empty`), and the TAKEs return them all between
an AVAIL of 1 and one of 0 (`runAll_avail_takes_avail`). -/
theorem storedBytesComeBackInOrder : Obligations.StoredBytesComeBackInOrder := by
  rintro s bytes ⟨h, -⟩ hx hi hp hc hempty hpos hcap
  obtain ⟨m, hd, hstores, h', hcontents⟩ := runAll_stores_of_empty h hx hi hp hempty hcap
  obtain ⟨tl, htakes, hend⟩ := runAll_avail_takes_avail h' hx hc hcontents (List.ne_nil_of_length_pos hpos)
  rw [List.append_assoc, List.append_assoc, ← List.append_assoc [Instr.avail]]
  exact ⟨_, runAll_append_next hstores htakes, rfl, rfl, rfl, rfl, hend⟩

/-- Settles O52: the first N - 1 STOREs fill the buffer (`runAll_stores_of_empty`), so the last is dropped
(`execStore_of_full`). -/
theorem overflowDropsOnlyTheLast : Obligations.OverflowDropsOnlyTheLast := by
  rintro s bytes last ⟨h, -⟩ hx hi hp hempty hlen
  obtain ⟨m, hd, hstores, h', hcontents⟩ := runAll_stores_of_empty h hx hi hp hempty hlen.le
  have hocc : (s.withProducer m hd s.pPhase).occ = s.cfg.usable := by
    rw [← State.length_contents, hcontents, List.length_map, hlen]
  have hdrop := execStore_of_full (b := last) (s := s.withProducer m hd s.pPhase) hi hp
    ((State.full_iff_occ h'.cursors hx).mpr hocc)
  rw [List.map_append]
  exact ⟨_, runAll_append_next hstores (runAll_singleton_next hdrop), hcontents, rfl, rfl⟩

end Sys2Proof.Machine
end

section
/-! PROOFS. The transmit unit: its micro-steps and SEND (O29 to O33), and that the FIFO ignores it (O34). -/

namespace Sys2Proof.Machine

/-! ### SEND.1 and SEND.2 (R131, R132) -/

theorem sendRefusal_of_busy (b : Byte) {s : State} (hi : s.inited = true) (ht : s.txPhase ≠ .idle) :
    sendRefusal b s = some (.portBusy .tx) := by simp [sendRefusal, hi, ht]

theorem send2_of_idle {s : State} (ht : s.txPhase = .idle) : send2 s = s := by simp [send2, ht]

/-- On a ready draw the byte is handed over and the caller released (R132). -/
theorem send2_of_ready {s t : State} {b : Byte} (ht : s.txPhase = .wait b) (hd : s.drawReady = (true, t)) :
    send2 s = { t with txLog := s.txLog ++ [b], txPhase := .idle, bareSend := false } := by simp [send2, ht, hd]

/-- On any other draw nothing but the draw happens (R132). -/
theorem send2_of_notReady {s t : State} {b : Byte} (ht : s.txPhase = .wait b) (hd : s.drawReady = (false, t)) :
    send2 s = t := by simp [send2, ht, hd]

/-- Settles O29: after `init` and with T idle SEND.1 is not refused; with T busy it is. -/
theorem send1HoldsCaller : Obligations.Send1HoldsCaller := by
  intro s b hi ht
  refine ⟨_, by rw [runItem, send1_of_accepted (sendRefusal_none.mpr ⟨hi, ht⟩)], rfl, rfl, fun c => ?_⟩
  have hbusy : sendRefusal c { s with txPhase := .wait b } = some (.portBusy .tx) := sendRefusal_of_busy c hi (by simp)
  rw [runItem, send1_of_refused hbusy, State.refuse_eq]

/-- Settles O30: the draw is the first value laid down, or the free one, and SEND.2 does what the draw says. -/
theorem send2HandsOverWhenReady : Obligations.Send2HandsOverWhenReady := by
  intro s b ht
  refine ⟨fun rest hpolls => ?_, fun rest hpolls => ?_, fun hpolls => ⟨fun hfree => ?_, fun hfree => ?_⟩⟩
  · rw [runItem, send2_of_ready ht (drawReady_laid hpolls)]
  · rw [runItem, send2_of_notReady ht (drawReady_laid hpolls)]
  · rw [runItem, send2_of_ready ht (hfree ▸ drawReady_free hpolls)]
  · rw [runItem, send2_of_notReady ht (hfree ▸ drawReady_free hpolls)]

/-! ### The polls laid down (R99) -/

/-- Where no SEND is in progress there is nothing to poll for. -/
theorem pollTimes_of_idle (k : Nat) {s : State} (ht : s.txPhase = .idle) : pollTimes k s = s := by
  induction k with
  | zero => rfl
  | succ k ih => rw [pollTimes, send2_of_idle ht, ih]

/-- Polls that draw 0 use up their draws and nothing else. -/
theorem pollTimes_notReady (k j : Nat) {s : State} {b : Byte} {rest : List Bool} (ht : s.txPhase = .wait b)
    (hpolls : s.polls = List.replicate k false ++ rest) :
    pollTimes (k + j) s = pollTimes j { s with polls := rest } := by
  induction k generalizing s with
  | zero =>
    obtain rfl : s.polls = rest := hpolls
    rw [Nat.zero_add]
  | succ k ih =>
    rw [Nat.succ_add, pollTimes, send2_of_notReady ht (drawReady_laid hpolls)]
    exact ih ht rfl

/-- The polls laid down hand the byte over once: at the first of them that draws 1, which releases the caller. -/
theorem pollTimes_ready {k : Nat} {s : State} {b : Byte} {rest : List Bool} (ht : s.txPhase = .wait b)
    (hpolls : s.polls = List.replicate k false ++ true :: rest) :
    pollTimes s.polls.length s
      = { s with polls := rest, txLog := s.txLog ++ [b], txPhase := .idle, bareSend := false } := by
  have hlen : s.polls.length = k + (rest.length + 1) := by simp [hpolls]
  have hready : send2 { s with polls := true :: rest }
      = { s with polls := rest, txLog := s.txLog ++ [b], txPhase := .idle, bareSend := false } :=
    send2_of_ready (s := { s with polls := true :: rest }) ht (drawReady_laid rfl)
  rw [hlen, pollTimes_notReady k _ ht hpolls, pollTimes, hready, pollTimes_of_idle _ rfl]

/-- As many polls as are laid down draw no free value, and change nothing but the transmit unit. -/
theorem pollTimes_withTransmit {k : Nat} {s : State} (hk : k ≤ s.polls.length) :
    ∃ ph log polls bare, pollTimes k s = s.withTransmit ph log polls s.drawn bare := by
  induction k generalizing s with
  | zero => exact ⟨_, _, _, _, rfl⟩
  | succ k ih =>
    cases ht : s.txPhase with
    | idle => exact ⟨_, _, _, _, pollTimes_of_idle _ ht⟩
    | wait b =>
      obtain ⟨r, rest, hpolls⟩ := List.exists_cons_of_length_pos (Nat.zero_lt_of_lt hk)
      rw [pollTimes]
      cases r with
      | true =>
        rw [send2_of_ready ht (drawReady_laid hpolls), pollTimes_of_idle k rfl]
        exact ⟨_, _, _, _, rfl⟩
      | false =>
        rw [send2_of_notReady ht (drawReady_laid hpolls)]
        exact ih (s := { s with polls := rest }) (by simpa [hpolls] using hk)

/-! ### SEND -/

/-- A SEND that is over is not marked. -/
theorem markHeld_of_idle {s : State} (ht : s.txPhase = .idle) : markHeld s = s := by simp [markHeld, State.txBusy, ht]

theorem execSend_of_accepted {s : State} {b : Byte} (hr : sendRefusal b s = none) :
    execSend b s = .next (markHeld (pollTimes s.polls.length { s with txPhase := .wait b })) := by
  simp [execSend, hr, send1_of_accepted hr]

theorem execSend_of_refused {s : State} {b : Byte} {c : RefusalCause} (hr : sendRefusal b s = some c) :
    execSend b s = .next (s.refuse c) := by simp [execSend, hr, send1_of_refused hr]

/-- SEND is refused, or changes nothing but the transmit unit; it draws no free value. -/
theorem execSend_cases {s t : State} {b : Byte} (h : execSend b s = .next t) :
    (∃ c, sendRefusal b s = some c ∧ t = s.refuse c) ∨
    (sendRefusal b s = none ∧ ∃ ph log polls bare, t = s.withTransmit ph log polls s.drawn bare) := by
  cases hr : sendRefusal b s with
  | some c =>
    rw [execSend_of_refused hr] at h
    cases h
    exact .inl ⟨c, rfl, rfl⟩
  | none =>
    obtain ⟨ph, log, polls, bare, hpolls⟩ :=
      pollTimes_withTransmit (s := { s with txPhase := .wait b }) (Nat.le_refl s.polls.length)
    rw [execSend_of_accepted hr, hpolls, markHeld] at h
    cases h
    refine .inr ⟨rfl, ph, log, polls, ?_⟩
    split <;> exact ⟨_, rfl⟩

/-- Settles O31: the polls laid down hand the byte over once (`pollTimes_ready`), and the SEND, being over, is not marked
(`markHeld_of_idle`). -/
theorem sendCompletesWhenReady : Obligations.SendCompletesWhenReady := by
  intro s b k rest hi ht hpolls
  rw [exec, execSend_of_accepted (sendRefusal_none.mpr ⟨hi, ht⟩),
    pollTimes_ready (s := { s with txPhase := .wait b }) rfl hpolls, markHeld_of_idle rfl, ← ht]

/-- The next turn of a marked SEND is its poll, whatever is scheduled (R9). -/
theorem nextTurn_bareSend {s : State} (h : s.bareSend = true) : nextTurn s = (some .send2, s) := by simp [nextTurn, h]

/-- Settles O32: all polls laid down draw 0 (`pollTimes_notReady`), so the caller is held and the SEND is marked; the
poll that is a marked SEND's next turn draws the free value (O30). -/
theorem sendHeldWhileNotReady : Obligations.SendHeldWhileNotReady := by
  refine ⟨fun s b k hi ht hpolls => ?_, fun s b hbare ht hpolls => ?_⟩
  · have hlen : s.polls.length = k + 0 := by simp [hpolls]
    have hnil : s.polls = List.replicate k false ++ [] := by simp [hpolls]
    rw [exec, execSend_of_accepted (sendRefusal_none.mpr ⟨hi, ht⟩), hlen,
      pollTimes_notReady (s := { s with txPhase := .wait b }) k 0 rfl hnil]
    rfl
  · obtain ⟨-, -, hfree⟩ := send2HandsOverWhenReady s b ht
    obtain ⟨hready, hnot⟩ := hfree hpolls
    rw [step_of_nextTurn_some (nextTurn_bareSend hbare)]
    split
    · exact hready ‹_›
    · exact hnot (Bool.eq_false_of_not_eq_true ‹_›)

/-- Settles O33: a SEND is refused, which records the cause alone, or changes the transmit unit alone (`execSend_cases`). -/
theorem sendFrame : Obligations.SendFrame := by
  intro s t b h
  rcases execSend_cases h with ⟨c, hr, rfl⟩ | ⟨hr, ph, log, polls, bare, rfl⟩
  · simp [hr]
  · simp [hr, State.withTransmit]

/-! ### The FIFO and the transmit unit (R130) -/

/-- The step does the same whatever the transmit unit holds, and leaves what it holds. -/
def IgnoresTransmit (f : State → Out) : Prop :=
  ∀ s ph log polls drawn bare,
    f (s.withTransmit ph log polls drawn bare) = onNext (State.withTransmit · ph log polls drawn bare) (f s)

namespace IgnoresTransmit

variable {f g : State → Out}

theorem andThen (hf : IgnoresTransmit f) (hg : IgnoresTransmit g) :
    IgnoresTransmit fun s => Machine.andThen (f s) g := by
  intro s ph log polls drawn bare
  simp only [hf s ph log polls drawn bare]
  cases f s with
  | next t => exact hg t ph log polls drawn bare
  | fault r => rfl
  | refused r => rfl

/-- A test that does not look at the transmit unit chooses between two steps that ignore it. -/
theorem ite {c : State → Bool} (hc : ∀ s ph log polls drawn bare, c (s.withTransmit ph log polls drawn bare) = c s)
    (hf : IgnoresTransmit f) (hg : IgnoresTransmit g) : IgnoresTransmit fun s => if c s then f s else g s := by
  intro s ph log polls drawn bare
  simp only [hc]
  cases c s with
  | true => exact hf s ph log polls drawn bare
  | false => exact hg s ph log polls drawn bare

end IgnoresTransmit

theorem refuse_ignoresTransmit (c : RefusalCause) : IgnoresTransmit fun s => .next (s.refuse c) :=
  fun _ _ _ _ _ _ => rfl

theorem store1_ignoresTransmit (b : Byte) : IgnoresTransmit fun s => .next (store1 b s) := by
  intro s ph log polls drawn bare
  have hrefusal : storeRefusal b (s.withTransmit ph log polls drawn bare) = storeRefusal b s := rfl
  have hfull : (s.withTransmit ph log polls drawn bare).full = s.full := rfl
  simp only [store1, hrefusal, hfull]
  cases storeRefusal b s with
  | some c => rfl
  | none => cases s.full <;> rfl

theorem store2_ignoresTransmit : IgnoresTransmit store2 := by
  intro s ph log polls drawn bare
  cases hp : s.pPhase with
  | write b =>
    by_cases hh : s.head < s.cfg.n <;>
      simp [store2, hp, State.withTransmit, storeEntry, hh, andThen, onNext]
  | _ => simp [store2, hp, State.withTransmit, onNext]

theorem store3_ignoresTransmit : IgnoresTransmit store3 := by
  intro s ph log polls drawn bare
  cases hp : s.pPhase <;> simp [store3, hp, State.withTransmit, State.succ, onNext]

theorem execStore_ignoresTransmit (b : Byte) : IgnoresTransmit (execStore b) :=
  .ite (fun _ _ _ _ _ _ => rfl)
    ((store1_ignoresTransmit b).andThen (store2_ignoresTransmit.andThen store3_ignoresTransmit))
    (store1_ignoresTransmit b)

theorem execAvail_ignoresTransmit : IgnoresTransmit execAvail :=
  .ite (fun _ _ _ _ _ _ => rfl) (refuse_ignoresTransmit _) fun _ _ _ _ _ _ => rfl

/-- TAKE.1's read of the entry at `tail`. -/
theorem loadTail_ignoresTransmit :
    IgnoresTransmit fun s => loadEntry s.tail s fun v => .next { s with cPhase := .adv v } := by
  intro s ph log polls drawn bare
  by_cases htail : s.tail < s.cfg.n
  · cases hv : s.storage.read s.tail <;> simp [loadEntry, State.withTransmit, htail, hv, onNext]
  · simp [loadEntry, State.withTransmit, htail, onNext]

theorem take1_ignoresTransmit : IgnoresTransmit take1 :=
  .ite (fun _ _ _ _ _ _ => rfl) (refuse_ignoresTransmit _)
    (.ite (fun _ _ _ _ _ _ => rfl) (fun _ _ _ _ _ _ => rfl) loadTail_ignoresTransmit)

theorem take2_ignoresTransmit : IgnoresTransmit take2 := by
  intro s ph log polls drawn bare
  cases hc : s.cPhase <;> simp [take2, hc, State.withTransmit, State.succ, State.returnRd, onNext]

theorem execTake_ignoresTransmit : IgnoresTransmit execTake :=
  .ite (fun _ _ _ _ _ _ => rfl) (take1_ignoresTransmit.andThen take2_ignoresTransmit) take1_ignoresTransmit

/-- Settles O34: each of the three operations is made of micro-steps that ignore the transmit unit. -/
theorem fifoIgnoresTransmitUnit : Obligations.FifoIgnoresTransmitUnit := by
  rintro s i ph log polls drawn bare (rfl | rfl | ⟨b, rfl⟩)
  · exact execAvail_ignoresTransmit s ph log polls drawn bare
  · exact execTake_ignoresTransmit s ph log polls drawn bare
  · exact execStore_ignoresTransmit b s ph log polls drawn bare

end Sys2Proof.Machine
end

section
/-! PROOFS. The system operations: NOP, RESET and `init` (O9 to O12). -/

namespace Sys2Proof.Machine

/-! ### NOP (R141) -/

theorem exec_nop (s : State) : exec .nop s = .next s := rfl

theorem decode_nopWord : decode 0x000 = .ok .nop := by decide

/-- A software call does not hold NOP, so only a contiguous STORE does (R141, R188). -/
theorem enabled_nopWord {s : State} (hisr : s.isrHolds = false) : enabled s (.word 0x000) = true :=
  (enabled_word_iff decode_nopWord s).mpr ⟨.inl hisr, .inr (.inr rfl)⟩

/-- Settles O9: NOP answers its state, and as the first word nothing holds it (`enabled_nopWord`). -/
theorem nopChangesNothing : Obligations.NopChangesNothing := by
  refine fun s => ⟨exec_nop s, fun rest hsched hbare hisr => ?_⟩
  rw [step_first hbare hsched (enabled_nopWord hisr), runItem_word decode_nopWord, exec_nop]

/-! ### RESET (R142, R143) -/

theorem exec_reset (s : State) : exec .reset s = execReset s := rfl

theorem State.allIdle_iff {s : State} :
    s.allIdle = true ↔ s.pPhase = .idle ∧ s.cPhase = .idle ∧ s.txPhase = .idle := by
  simp [State.allIdle, and_assoc]

theorem State.allIdle_eq_false_iff {s : State} :
    s.allIdle = false ↔ s.pPhase ≠ .idle ∨ s.cPhase ≠ .idle ∨ s.txPhase ≠ .idle := by
  rw [← Bool.not_eq_true, State.allIdle_iff, not_and_or, not_and_or]

theorem execReset_of_idle {s : State} (h : s.allIdle = true) : execReset s = .next (resetCursors s) := if_pos h

theorem execReset_of_busy {s : State} (h : s.allIdle = false) :
    execReset s = .next (s.refuse (.resetBusy s.pPhase s.cPhase s.txPhase)) := if_neg (Bool.not_eq_true _ ▸ h)

/-- Where the sequencers are idle already, RESET writes the cursors and their copies only (R142, R75). -/
theorem resetCursors_of_idle {s : State} (hp : s.pPhase = .idle) (hc : s.cPhase = .idle) (ht : s.txPhase = .idle) :
    resetCursors s = { s with
      head := 0, tail := 0
      headRd := if s.cfg.xdLag then 0 else s.headRd
      tailWr := if s.cfg.xdLag then 0 else s.tailWr } := by
  simp only [resetCursors, hp, hc, ht]

/-- Both cursors are 0, so the buffer is empty, whatever N. -/
theorem resetCursors_occ (s : State) : (resetCursors s).occ = 0 := Nat.mod_self _

/-- C's view of `head` is 0 too: `head` itself with XD_LAG = 0, its copy, which RESET clears, with XD_LAG = 1 (R75). -/
theorem resetCursors_headC (s : State) : (resetCursors s).headC = 0 := by
  cases hx : s.cfg.xdLag with
  | false => simp [headC_direct, hx]
  | true => simp [headC_lag, hx]

theorem resetCursors_rdAvail (s : State) : (resetCursors s).rdAvail = false := by
  rw [State.rdAvail, resetCursors_headC]
  rfl

/-- Settles O10: an idle RESET is not refused, and leaves both cursors and C's view of `head` at 0. -/
theorem resetClearsCursors : Obligations.ResetClearsCursors := by
  intro s hp hc ht
  exact ⟨resetCursors s, execReset_of_idle (State.allIdle_iff.mpr ⟨hp, hc, ht⟩), resetCursors_of_idle hp hc ht,
    resetCursors_occ s, resetCursors_contents s, resetCursors_rdAvail s⟩

/-- Settles O11: with a sequencer not idle RESET's guard is false, and the refusal is all it does. -/
theorem resetBusyRefused : Obligations.ResetBusyRefused := by
  intro s hbusy
  rw [exec_reset, execReset_of_busy (State.allIdle_eq_false_iff.mpr hbusy), State.refuse_eq]

/-! ### `init` (R144, R214) -/

theorem initBlock_first {s : State} (h : s.inited = false) : initBlock s = { s with inited := true } := by
  simp [initBlock, h]

theorem initBlock_again {s : State} (h : s.inited = true) : initBlock s = s.refuse .reinit := if_pos h

/-- With no software call in progress nothing waits for one (log 15). -/
theorem waitsForCall_of_softIdle {s : State} (h : s.soft = .idle) (it : Item) : waitsForCall s it = false := by
  simp [waitsForCall, h]

/-- `init` has no guard of its own, so only a contiguous STORE and a software call hold it (logs 10 and 15). -/
theorem enabled_init {s : State} (hisr : s.isrHolds = false) (hsoft : s.soft = .idle) : enabled s .init = true :=
  (enabled_iff s .init).mpr ⟨rfl, (waitsForStore_eq_false_iff s _).mpr (.inl hisr), waitsForCall_of_softIdle hsoft _⟩

/-- Settles O12: `inited` alone decides what `init` does, and as the first item nothing holds it (`enabled_init`). -/
theorem initHappensOnce : Obligations.InitHappensOnce := by
  refine fun s => ⟨fun hfirst => ?_, fun hagain => ?_, fun rest hsched hbare hisr hsoft =>
    step_first hbare hsched (enabled_init hisr hsoft)⟩
  · rw [runItem, initBlock_first hfirst]
  · rw [runItem, initBlock_again hagain, State.refuse_eq]

end Sys2Proof.Machine
end

section
/-! PROOFS. The texts of the write calls: an integer's text parses back (O59), a binary dump is bit by bit (O60). -/

namespace Sys2Proof.Machine

/-! ### The character of a decimal digit -/

/-- `digitChar` reads its argument modulo 10, so the ten digits are all there is to check. -/
theorem digitChar_digit (d : Nat) : digitValue (digitChar d) = some (d % 10) ∧ isSpace (digitChar d) = false ∧
    (digitChar d == chMinus) = false := by
  have hdigits : ∀ e < 10, digitValue (digitChar e) = some e ∧ isSpace (digitChar e) = false ∧
      (digitChar e == chMinus) = false := by decide
  have hmod : digitChar d = digitChar (d % 10) := by simp [digitChar]
  rw [hmod]
  exact hdigits _ (Nat.mod_lt _ (by decide))

theorem parseDigits_digitChar (acc d : Nat) (rest : List Byte) :
    parseDigits acc (digitChar d :: rest) = parseDigits (acc * 10 + d % 10) rest := by
  simp [parseDigits, (digitChar_digit d).1]

/-! ### Decimal text and its parse (R157) -/

/-- With fuel for all its digits, a number's digits parse to the number, and the parse goes on behind them. -/
theorem parseDigits_digitsAux {fuel k : Nat} (hfuel : k < fuel) (rest : List Byte) :
    parseDigits 0 (digitsAux fuel k rest) = parseDigits k rest := by
  induction fuel generalizing k rest with
  | zero => exact absurd hfuel (Nat.not_lt_zero k)
  | succ fuel ih =>
    rw [digitsAux]
    split
    · rename_i hk
      rw [parseDigits_digitChar, Nat.mod_eq_of_lt hk, Nat.zero_mul, Nat.zero_add]
    · have hvalue : k / 10 * 10 + k % 10 % 10 = k := by omega
      rw [ih (by omega), parseDigits_digitChar, hvalue]

theorem digitsAux_eq_cons (fuel k : Nat) (rest : List Byte) :
    ∃ d more, digitsAux (fuel + 1) k rest = digitChar d :: more := by
  induction fuel generalizing k rest with
  | zero =>
    rw [digitsAux]
    split <;> exact ⟨_, _, rfl⟩
  | succ fuel ih =>
    rw [digitsAux]
    split
    · exact ⟨_, _, rfl⟩
    · exact ih _ _

theorem natText_eq_cons (k : Nat) : ∃ d more, natText k = digitChar d :: more := digitsAux_eq_cons k k []

theorem parseNat_natText (k : Nat) : parseNat (natText k) = some k := by
  have hdigits : parseDigits 0 (natText k) = some k := parseDigits_digitsAux (Nat.lt_succ_self k) []
  obtain ⟨d, more, h⟩ := natText_eq_cons k
  rw [h] at hdigits ⊢
  exact hdigits

/-- Behind a minus sign a natural number parses to its negative. -/
theorem parseDecimal_minus {text : List Byte} {k : Nat} (h : parseNat text = some k) :
    parseDecimal (chMinus :: text) = some (-(k : Int)) := by
  have hspace : isSpace chMinus = false := by decide
  simp [parseDecimal, hspace, h]

theorem parseDecimal_natText (k : Nat) : parseDecimal (natText k) = some (k : Int) := by
  have hparse := parseNat_natText k
  obtain ⟨d, more, h⟩ := natText_eq_cons k
  obtain ⟨-, hspace, hminus⟩ := digitChar_digit d
  rw [h] at hparse ⊢
  simp [parseDecimal, hspace, hminus, hparse]

theorem parseDecimal_intText (i : Int) : parseDecimal (intText i) = some i := by
  rw [intText]
  split
  · have habs : -(i.natAbs : Int) = i := by omega
    rw [parseDecimal_minus (parseNat_natText _), habs]
  · have habs : (i.natAbs : Int) = i := by omega
    rw [parseDecimal_natText, habs]

/-- Settles O59: the parser finds a decimal integer (`parseDecimal_intText`), so it never falls back on a free value. -/
theorem integerTextRoundTrips : Obligations.IntegerTextRoundTrips := fun i =>
  ⟨parseDecimal_intText i, fun ident k => by rw [parseValue, parseDecimal_intText, Option.getD_some]⟩

/-! ### The binary dump (R159) -/

theorem length_binaryText (w x : Nat) : (binaryText w x).length = w := by
  induction w with
  | zero => rfl
  | succ w ih => rw [binaryText, List.length_cons, ih]

/-- The text of `w + 1` bits is bit `w` and the text of the rest, so bit `k` stands `w - k` places on. -/
theorem getElem?_binaryText {w k : Nat} (x : Nat) (hk : k < w) :
    (binaryText w x)[w - 1 - k]? = some (if x.testBit k then 0x31 else 0x30) := by
  induction w with
  | zero => exact absurd hk (Nat.not_lt_zero k)
  | succ w ih =>
    rcases Nat.eq_or_lt_of_le (Nat.le_of_lt_succ hk) with rfl | hlt
    · simp [binaryText]
    · have hindex : w + 1 - 1 - k = (w - 1 - k) + 1 := by omega
      rw [binaryText, hindex, List.getElem?_cons_succ, ih hlt]

/-- Settles O60: one character a bit (`length_binaryText`), each at its place (`getElem?_binaryText`). -/
theorem binaryTextIsMsbFirst : Obligations.BinaryTextIsMsbFirst := fun w x =>
  ⟨length_binaryText w x, fun _ => getElem?_binaryText x⟩

end Sys2Proof.Machine
end

section
/-! PROOFS. RDBYTE: its polls, how it gives up, and the byte it returns; no turn of a software call faults or stores (O54 to
O56). -/

namespace Sys2Proof.Machine

theorem softTurns_succ_next {k : Nat} {s t : State} (h : softTurn s = .next t) : softTurns (k + 1) s = softTurns k t := by
  rw [softTurns, h, andThen_next]

/-! ### RDBYTE's turns (R151) -/

section

variable {s : State} {job : ReadJob}

/-- With the budget spent RDBYTE gives up. -/
theorem softTurn_of_spent (hs : s.soft = .read job .poll) (ht : job.timeout ≠ 0) (hb : job.budget = 0) :
    softTurn s = .next (s.returnCall (timedOutResult job.line)) := by simp [softTurn, hs, pollTurn, ht, hb]

/-- An AVAIL of 0 leaves RDBYTE 0 polling. -/
theorem softTurn_of_empty_untimed (hs : s.soft = .read job .poll) (hc : s.cPhase = .idle) (ha : s.rdAvail = false)
    (ht : job.timeout = 0) : softTurn s = .next (s.returnRd (.avail false)) := by
  simp [softTurn, hs, pollTurn, execAvail_of_idle ha hc, hc, ha, ht]

/-- With a timeout an AVAIL of 0 takes one off the budget. -/
theorem softTurn_of_empty_timed (hs : s.soft = .read job .poll) (hc : s.cPhase = .idle) (ha : s.rdAvail = false)
    (ht : job.timeout ≠ 0) (hb : job.budget ≠ 0) :
    softTurn s = .next { s.returnRd (.avail false) with soft := .read { job with budget := job.budget - 1 } .poll } := by
  simp [softTurn, hs, pollTurn, execAvail_of_idle ha hc, hc, ha, ht, hb]

/-- Where the budget is not spent, an AVAIL of 1 sends the call on to TAKE. -/
theorem softTurn_of_rdAvail (hs : s.soft = .read job .poll) (hc : s.cPhase = .idle) (ha : s.rdAvail = true)
    (hb : job.timeout = 0 ∨ job.budget ≠ 0) :
    softTurn s = .next { s.returnRd (.avail true) with soft := .read job .take } := by
  have hgo : ¬(job.timeout ≠ 0 ∧ job.budget = 0) := by omega
  simp [softTurn, hs, pollTurn, hgo, execAvail_of_idle ha hc, hc, ha]

/-- The call's TAKE.1, accepted, latches the byte at `tail`. -/
theorem softTurn_of_take {v : Byte} (hs : s.soft = .read job .take) (hc : s.cPhase = .idle) (ha : s.rdAvail = true)
    (htail : s.tail < s.cfg.n) (hv : s.storage.read s.tail = some v) :
    softTurn s = .next { s with cPhase := .adv v, soft := .read job .advance } := by
  have htake : take1 s = .next { s with cPhase := .adv v } :=
    (take1_of_rdAvail hc ha).trans (loadEntry_eq_next.mpr ⟨htail, v, hv, rfl⟩)
  simp [softTurn, hs, takeTurn, takeAccepted_iff.mpr ⟨hc, ha⟩, htake]

/-- The call's TAKE.2 delivers the byte. -/
theorem softTurn_of_advance {v : Byte} (hs : s.soft = .read job .advance) (hc : s.cPhase = .adv v) :
    softTurn s = .next (deliverByte job v ({ s with tail := s.succ s.tail, cPhase := .idle }.returnRd (.byte v))) := by
  simp [softTurn, hs, advanceTurn, hc, take2_of_adv hc]

end

/-! ### A buffer that stays empty (R151, R152) -/

theorem State.rdAvail_of_empty {s : State} (h : s.headC = s.tail) : s.rdAvail = false := by simp [State.rdAvail, h]

/-- The state after `k` AVAILs of a read call that answered 0: each is in the observation and off the budget. -/
def State.afterPolls (s : State) (job : ReadJob) (k : Nat) : State :=
  { s with
    rdLog := s.rdLog ++ List.replicate k (.avail false)
    soft := .read { job with budget := job.budget - k } .poll }

/-- The job of a bare RDBYTE (R151). -/
def rdByteJob (s : State) (t : Nat) : ReadJob := { timeout := t, budget := t * s.cfg.ipm, line := none }

theorem startCall_rdByte (s : State) (t : Nat) : startCall (.rdByte t) s = s.afterPolls (rdByteJob s t) 0 := by
  simp [startCall, freshByte, State.afterPolls, rdByteJob]

/-- One more AVAIL of 0, in the observation and off the budget. -/
theorem State.afterPolls_succ (s : State) (job : ReadJob) (k : Nat) :
    s.afterPolls job (k + 1) = { (s.afterPolls job k).returnRd (.avail false) with
      soft := .read { job with budget := job.budget - k - 1 } .poll } := by
  simp [State.afterPolls, State.returnRd, List.replicate_succ', Nat.sub_sub]

section

variable {s : State} {job : ReadJob} (hc : s.cPhase = .idle) (ha : s.rdAvail = false)
include hc ha

/-- RDBYTE 0, which has no budget, and a call with budget left make one more AVAIL. -/
theorem softTurn_afterPolls {k : Nat} (hjob : job.timeout = 0 ∧ job.budget = 0 ∨ job.timeout ≠ 0 ∧ k < job.budget) :
    softTurn (s.afterPolls job k) = .next (s.afterPolls job (k + 1)) := by
  rw [State.afterPolls_succ]
  rcases hjob with ⟨ht, hb⟩ | ⟨ht, hlt⟩
  · have hbudget : job.budget - k - 1 = job.budget - k := by omega
    rw [hbudget]
    exact softTurn_of_empty_untimed (s := s.afterPolls job k) rfl hc ha ht
  · exact softTurn_of_empty_timed (s := s.afterPolls job k) rfl hc ha ht (Nat.sub_ne_zero_of_lt hlt)

/-- While the budget lasts every turn is an AVAIL that answers 0. -/
theorem softTurns_afterPolls (k j : Nat)
    (hjob : job.timeout = 0 ∧ job.budget = 0 ∨ job.timeout ≠ 0 ∧ k ≤ job.budget) :
    softTurns (k + j) (s.afterPolls job 0) = softTurns j (s.afterPolls job k) := by
  induction k generalizing j with
  | zero => rw [Nat.zero_add]
  | succ k ih =>
    rw [Nat.add_right_comm, Nat.add_assoc, ih (j + 1) (by omega),
      softTurns_succ_next (softTurn_afterPolls hc ha (by omega))]

end

/-- Settles O54: the budget lasts for `t * IPM` polls (`softTurns_afterPolls`), and the turn after them gives up. -/
theorem readByteTimesOutAfterBudget : Obligations.ReadByteTimesOutAfterBudget := by
  intro s t ht hs hc hempty
  have hpolls := softTurns_afterPolls (job := rdByteJob s t) hc (State.rdAvail_of_empty hempty) (t * s.cfg.ipm) 1
    (.inr ⟨ht, le_rfl⟩)
  rw [startCall_rdByte, hpolls, softTurns_succ_next (softTurn_of_spent rfl ht (Nat.sub_self _)), hs]
  rfl

/-- Settles O55: with timeout 0 every turn is a poll (`softTurns_afterPolls`), and C, idle, has a further one to take. -/
theorem readByteWithoutTimeoutKeepsPolling : Obligations.ReadByteWithoutTimeoutKeepsPolling := by
  intro s k _ hc hempty
  have hpolls := softTurns_afterPolls (job := rdByteJob s 0) hc (State.rdAvail_of_empty hempty) k 0
    (.inl ⟨rfl, Nat.zero_mul _⟩)
  rw [← startCall_rdByte] at hpolls
  exact ⟨_, hpolls, rfl, rfl, beq_iff_eq.mpr hc⟩

/-! ### A buffer that holds a byte (R151) -/

/-- The three turns of a call whose AVAIL answers 1: AVAIL, TAKE.1, and TAKE.2, which delivers the byte at `tail`. -/
theorem softTurns_of_rdAvail {s : State} {job : ReadJob} {v : Byte} (hs : s.soft = .read job .poll)
    (hc : s.cPhase = .idle) (ha : s.rdAvail = true) (hb : job.timeout = 0 ∨ job.budget ≠ 0)
    (htail : s.tail < s.cfg.n) (hv : s.storage.read s.tail = some v) :
    softTurns 3 s = .next (deliverByte job v { s with
      tail := s.succ s.tail, rdLog := s.rdLog ++ [.avail true, .byte v], soft := .read job .advance }) := by
  have hlog : s.rdLog ++ [.avail true, .byte v] = s.rdLog ++ [.avail true] ++ [.byte v] := by simp
  rw [hlog, hc]
  calc softTurns 3 s
      = softTurns 2 { s.returnRd (.avail true) with soft := .read job .take } :=
        softTurns_succ_next (softTurn_of_rdAvail hs hc ha hb)
    _ = softTurns 1 { s.returnRd (.avail true) with cPhase := .adv v, soft := .read job .advance } :=
        softTurns_succ_next (softTurn_of_take rfl hc ha htail hv)
    _ = _ := softTurns_succ_next (softTurn_of_advance rfl rfl)

/-! ### What no turn of a software call does (R151, R164) -/

/-- A turn moves no `head` and writes no storage, since its agent is C or T (R64, R150). -/
theorem softTurn_head_storage {s t : State} (h : softTurn s = .next t) : t.head = s.head ∧ t.storage = s.storage := by
  have hagent : softAgent s.soft ≠ .producer := by cases s.soft <;> exact nofun
  obtain ⟨hstorage, hhead, -⟩ := State.partP_eq_iff.mp ((softTurn_writesOnly s t h).producer hagent)
  exact ⟨hhead, hstorage⟩

theorem lineByte_fault (timeout : Nat) (l : LineJob) (v : Byte) (s : State) : (lineByte timeout l v s).fault = s.fault := by
  rw [lineByte]
  split_ifs <;> rfl

theorem deliverByte_fault (job : ReadJob) (v : Byte) (s : State) : (deliverByte job v s).fault = s.fault := by
  rw [deliverByte]
  split
  · rfl
  · exact lineByte_fault _ _ v s

theorem sendRest_fault (rest : List Byte) (s : State) : (sendRest rest s).fault = s.fault := by cases rest <;> rfl

theorem send1_fault (b : Byte) (s : State) : (send1 b s).fault = s.fault := by
  rw [send1]
  split <;> rfl

theorem send2_fault (s : State) : (send2 s).fault = s.fault := by
  obtain ⟨polls, drawn, hd⟩ := drawReady_own s
  rw [send2]
  split
  · split <;> rw [hd]
  · rfl

theorem pollTurn_fault {job : ReadJob} {s t : State} (h : pollTurn job s = .next t) : t.fault = s.fault := by
  rw [pollTurn] at h
  split at h
  · cases h; rfl
  · obtain ⟨u, hu, h⟩ := andThen_eq_next.mp h
    have hfault : u.fault = s.fault := by rcases execAvail_cases hu with ⟨-, rfl⟩ | ⟨-, rfl⟩ <;> rfl
    split_ifs at h <;> (cases h; exact hfault)

/-- TAKE_EMPTY needs a TAKE.1 that is not accepted. -/
theorem takeTurn_fault {job : ReadJob} {s t : State} (hacc : takeAccepted s = true) (h : takeTurn job s = .next t) :
    t.fault = s.fault := by
  rw [takeTurn, if_pos hacc] at h
  obtain ⟨u, hu, h⟩ := andThen_eq_next.mp h
  obtain ⟨v, -, rfl⟩ := take1_of_accepted hacc hu
  cases h; rfl

theorem advanceTurn_fault {job : ReadJob} {s t : State} (h : advanceTurn job s = .next t) : t.fault = s.fault := by
  rw [advanceTurn] at h
  split at h
  · rename_i v hv
    rw [take2_of_adv hv, andThen_next] at h
    cases h
    exact deliverByte_fault job v _
  · cases h; rfl

theorem sendTurn_fault (rest : List Byte) (s : State) : (sendTurn rest s).fault = s.fault := by
  cases rest with
  | nil => rfl
  | cons b rest =>
    rw [sendTurn]
    split <;> exact send1_fault b s

theorem waitTurn_fault (rest : List Byte) (s : State) : (waitTurn rest s).fault = s.fault := by
  rw [waitTurn]
  split
  · exact (sendRest_fault _ _).trans (send2_fault s)
  · exact send2_fault s

/-- A call in step with its ports goes on to TAKE only after an AVAIL of 1 that still holds, so no turn of it faults
(R151, R164). -/
theorem softTurn_fault {s t : State} (hsoft : s.softPending = true) (h : softTurn s = .next t) : t.fault = s.fault := by
  rw [softTurn] at h
  split at h
  · cases h; rfl
  · exact pollTurn_fault h
  · rename_i job hs
    obtain ⟨⟨hc, -⟩, ha⟩ : (s.cPhase = .idle ∧ s.txPhase = .idle) ∧ s.rdAvail = true := by
      simpa [State.softPending, hs] using hsoft
    exact takeTurn_fault (takeAccepted_iff.mpr ⟨hc, ha⟩) h
  · exact advanceTurn_fault h
  · cases h; exact sendTurn_fault _ s
  · cases h; exact waitTurn_fault _ s

/-- Settles O56: the byte at `tail` is the first of the contents, and the three turns return it (`softTurns_of_rdAvail`);
no turn faults (`softTurn_fault`), moves `head` or stores (`softTurn_head_storage`). -/
theorem readByteReturnsOldest : Obligations.ReadByteReturnsOldest := by
  constructor
  · rintro s t ⟨h, -⟩ hs hc hne hpoll
    have ha := rdAvail_iff.mpr hne
    obtain ⟨v, hv⟩ := h.exists_read_tail ha
    obtain ⟨-, htail, -, -⟩ := h.cursors
    have hb : t = 0 ∨ t * s.cfg.ipm ≠ 0 := by
      rcases hpoll with ht | hipm
      · exact .inl ht
      · exact (eq_or_ne t 0).imp_right (Nat.mul_ne_zero · hipm)
    refine ⟨v, _, h.contents_take ha hv, ?_⟩
    have hturns := softTurns_of_rdAvail (s := startCall (.rdByte t) s) rfl hc ha hb htail hv
    rw [hturns, hs]
    rfl
  · rintro s t ⟨-, hsoft, -⟩ h
    exact ⟨softTurn_fault hsoft h, softTurn_head_storage h⟩

end Sys2Proof.Machine
end

section
/-! PROOFS. What RDLINE does with a byte (O57), and what a write call sends (O58). -/

namespace Sys2Proof.Machine

/-! ### RDLINE (R153, R154) -/

section

variable {timeout : Nat} {l : LineJob} {v : Byte} {s : State}

/-- A line that is refused ends the call (R154, log 19). -/
theorem refuseLine_eq (l : LineJob) (s : State) : refuseLine l s = { s with
    soft := .idle, refused := if s.refused = none then some (.lineTooLong l.maxLen) else s.refused } := by
  rw [refuseLine, State.refuse_eq]
  rfl

theorem lineByte_cr (h : l.buffer.length < l.maxLen) :
    lineByte timeout l chCr s = s.returnCall (lineResult s l.use l.buffer) := by
  simp [lineByte, Nat.not_le.mpr h]

theorem lineByte_cr_of_full (h : l.maxLen ≤ l.buffer.length) : lineByte timeout l chCr s = refuseLine l s := by
  simp [lineByte, h]

theorem lineByte_leading_lf (h : l.buffer = []) :
    lineByte timeout l chLf s = { s with soft := freshByte s timeout (some l) } := by
  have hcr : chLf ≠ chCr := by decide
  simp [lineByte, hcr, h]

theorem lineByte_append (hcr : v ≠ chCr) (hlf : v ≠ chLf ∨ l.buffer ≠ []) (h : l.buffer.length + 1 < l.maxLen) :
    lineByte timeout l v s = { s with soft := freshByte s timeout (some { l with buffer := l.buffer ++ [v] }) } := by
  rw [lineByte, if_neg hcr, if_neg (not_and_or.mpr hlf), if_neg (Nat.not_le.mpr h)]

theorem lineByte_append_of_full (hcr : v ≠ chCr) (hlf : v ≠ chLf ∨ l.buffer ≠ []) (h : l.maxLen ≤ l.buffer.length + 1) :
    lineByte timeout l v s = refuseLine l s := by
  rw [lineByte, if_neg hcr, if_neg (not_and_or.mpr hlf), if_pos h]

end

/-- Settles O57: a clause for each branch of `lineByte`. -/
theorem readLineTakesByte : Obligations.ReadLineTakesByte := by
  intro s timeout maxLen buffer v l
  refine ⟨fun h => lineByte_cr h, fun h => ?_, fun h => lineByte_leading_lf h,
    fun hcr hlf h => lineByte_append hcr hlf h, fun hcr hlf h => ?_⟩
  · exact (lineByte_cr_of_full h).trans (refuseLine_eq l s)
  · exact (lineByte_append_of_full (l := l) hcr hlf h).trans (refuseLine_eq l s)

/-! ### The write calls (R150, R155 to R159) -/

theorem startCall_write {c : Call} (h : isWriteCall c = true) (s : State) : startCall c s = sendRest (callBytes c) s := by
  cases c with
  | rdByte | rdLine | rdVal | rdFlt => cases h
  | _ => rfl

/-- A write call's SEND.1 of its next byte, after `init` and with T idle. -/
theorem softTurn_of_send {s : State} {b : Byte} {bytes : List Byte} (hs : s.soft = .write (b :: bytes) false)
    (hi : s.inited = true) (ht : s.txPhase = .idle) :
    softTurn s = .next { s with txPhase := .wait b, soft := .write (b :: bytes) true } := by
  have hr : sendRefusal b s = none := sendRefusal_none.mpr ⟨hi, ht⟩
  simp [softTurn, hs, sendTurn, hr, send1_of_accepted hr]

/-- Its SEND.2 on a ready poll hands the byte over and goes on with the bytes behind it. -/
theorem softTurn_of_ready {s : State} {b : Byte} {bytes : List Byte} {rest : List Bool}
    (hs : s.soft = .write (b :: bytes) true) (ht : s.txPhase = .wait b) (hpolls : s.polls = true :: rest) :
    softTurn s = .next (sendRest bytes
      { s with polls := rest, txLog := s.txLog ++ [b], txPhase := .idle, bareSend := false }) := by
  have hsend := send2_of_ready ht (drawReady_laid hpolls)
  simp [softTurn, hs, waitTurn, hsend]

/-- With a ready poll for each byte, a call sends the bytes it still has to send in two turns each, and returns. -/
theorem softTurns_sendRest (bytes : List Byte) {s : State} {rest : List Bool} (hi : s.inited = true)
    (ht : s.txPhase = .idle) (hb : s.bareSend = false) (hpolls : s.polls = List.replicate bytes.length true ++ rest) :
    softTurns (2 * bytes.length) (sendRest bytes s)
      = .next ({ s with polls := rest, txLog := s.txLog ++ bytes }.returnCall .written) := by
  induction bytes generalizing s with
  | nil =>
    obtain rfl : s.polls = rest := hpolls
    simp [softTurns, sendRest]
  | cons b bytes ih =>
    rw [List.length_cons, Nat.mul_succ]
    calc softTurns (2 * bytes.length + 2) (sendRest (b :: bytes) s)
        = softTurns (2 * bytes.length + 1) { s with txPhase := .wait b, soft := .write (b :: bytes) true } :=
          softTurns_succ_next (softTurn_of_send rfl hi ht)
      _ = softTurns (2 * bytes.length) (sendRest bytes { s with
            polls := List.replicate bytes.length true ++ rest, txLog := s.txLog ++ [b], txPhase := .idle,
            bareSend := false, soft := .write (b :: bytes) true }) :=
          softTurns_succ_next (softTurn_of_ready rfl rfl hpolls)
      _ = _ := ih hi rfl rfl rfl
      _ = _ := by simp [State.returnCall, ht, hb]

/-- Settles O58: a write call starts with its bytes still to send (`startCall_write`), and sends them
(`softTurns_sendRest`). -/
theorem writeCallSendsItsBytes : Obligations.WriteCallSendsItsBytes := by
  intro s c rest hwrite hi hs ht hb hpolls
  rw [startCall_write hwrite, softTurns_sendRest (callBytes c) hi ht hb hpolls, hs]
  rfl

end Sys2Proof.Machine
end

section
/-! PROOFS. A contiguous STORE (O49), an interrupt that waits for a STORE (O7), and operations on a busy port (O28). -/

namespace Sys2Proof.Machine

/-! ### What a step of P leaves unchanged (R5, R64, R188) -/

/-- Nothing changed but what a STORE may write. -/
def OnlyStores (s t : State) : Prop :=
  t = { s with storage := t.storage, head := t.head, pPhase := t.pPhase, drops := t.drops, refused := t.refused }

theorem store1_onlyStores (b : Byte) (s : State) : OnlyStores s (store1 b s) := by
  cases hacc : storeAccepted b s with
  | true => rw [store1_of_accepted hacc]; rfl
  | false => rcases store1_of_not_accepted hacc with ⟨c, h⟩ | h <;> rw [h] <;> rfl

theorem store2_onlyStores {s t : State} (h : store2 s = .next t) : OnlyStores s t := by
  rcases store2_cases h with rfl | ⟨b, -, rfl⟩ <;> rfl

theorem store3_onlyStores {s t : State} (h : store3 s = .next t) : OnlyStores s t := by
  rcases store3_cases h with rfl | ⟨-, rfl⟩ <;> rfl

theorem execStore_onlyStores {b : Byte} {s t : State} (h : execStore b s = .next t) : OnlyStores s t := by
  rcases execStore_cases h with ⟨-, ⟨c, rfl⟩ | rfl⟩ | ⟨-, rfl⟩ <;> rfl

/-- P's words are the STOREs (R91). -/
theorem exists_store_of_wordAgent {w : OpWord} (h : wordAgent w = .producer) : ∃ b, decode w = .ok (.store b) := by
  rw [wordAgent] at h
  cases hd : decode w with
  | error e => simp [hd] at h
  | ok i =>
    rw [hd] at h
    cases i with
    | store b => exact ⟨b, rfl⟩
    | nop | reset | avail | take | send => cases h

/-- The software takes its turns as C or as T (R150). -/
theorem softAgent_ne_producer (c : Soft) : softAgent c ≠ .producer := by cases c <;> exact nofun

/-- P's items are a STORE and its micro-steps. -/
theorem runItem_onlyStores {it : Item} {s t : State} (hP : itemAgent s it = .producer) (h : runItem it s = .next t) :
    OnlyStores s t := by
  cases it with
  | word w =>
    obtain ⟨b, hd⟩ := exists_store_of_wordAgent hP
    rw [runItem_word hd] at h
    exact execStore_onlyStores h
  | store1 b => cases h; exact store1_onlyStores b s
  | store2 => exact store2_onlyStores h
  | store3 => exact store3_onlyStores h
  | soft => exact absurd hP (softAgent_ne_producer s.soft)
  | interrupt | take1 | take2 | send1 | send2 | syncH | syncT | init | call => cases hP

/-! ### A contiguous STORE -/

/-- While a STORE is contiguous no bare SEND polls on, so what a step runs is enabled, and then it is P's. -/
theorem nextTurn_producer {s : State} {it : Item} (hsend : s.sendPending) (hisr : s.isrHolds = true)
    (hit : (nextTurn s).1 = some it) : itemAgent s it = .producer := by
  have hbare : s.bareSend = false := by
    refine Bool.eq_false_iff.mpr fun hb => ?_
    obtain ⟨-, hno, -⟩ := hsend hb
    cases hisr.symm.trans hno
  obtain ⟨-, hstore, -⟩ := (enabled_iff s it).mp (nextTurn_enabled hit hbare)
  exact ((waitsForStore_eq_false_iff s it).mp hstore).resolve_left (by simp [hisr])

/-- An item's agent depends neither on the schedule nor on the count of free turns. -/
theorem itemAgent_sched (s : State) (l : List Item) (k : Nat) (it : Item) :
    itemAgent { s with sched := l, turns := k } it = itemAgent s it := by cases it <;> rfl

/-- A step of a contiguous STORE changes what a STORE may write, and the schedule. -/
theorem step_onlyStores {s t : State} (hsend : s.sendPending) (hisr : s.isrHolds = true) (h : step s = .next t) :
    ∃ l k, OnlyStores { s with sched := l, turns := k } t := by
  obtain ⟨l, k, hstate⟩ := nextTurn_state s
  refine ⟨l, k, ?_⟩
  rcases step_cases s with ⟨it, hit, hstep⟩ | ⟨-, hstep⟩ <;> rw [hstep, hstate] at h
  · exact runItem_onlyStores ((itemAgent_sched s l k it).trans (nextTurn_producer hsend hisr hit)) h
  · cases h; rfl

/-- Settles O49: what a step runs is P's (`nextTurn_producer`), so nothing but what a STORE may write and the schedule
changes (`step_onlyStores`). -/
theorem atomicIsrShutsOutNormalContext : Obligations.AtomicIsrShutsOutNormalContext := by
  rintro s t ⟨-, -, hsend⟩ hatomic hp hstep
  have hisr : s.isrHolds = true := by simp [State.isrHolds, hatomic, hp]
  obtain ⟨l, k, h⟩ := step_onlyStores hsend hisr hstep
  refine ⟨fun it hit => nextTurn_producer hsend hisr hit, ?_⟩
  rw [OnlyStores] at h
  rw [h]
  exact ⟨rfl, rfl, rfl, rfl, rfl, rfl, rfl, rfl, rfl, rfl, rfl⟩

/-! ### An interrupt that waits (R184, R190) -/

/-- With P busy the interrupt is held (R190). -/
theorem enabled_interrupt_of_busy {s : State} (hp : s.pPhase ≠ .idle) (b : Byte) :
    enabled s (.interrupt b) = false := by simp [enabled, guardHolds, hp]

/-- With P idle no STORE is contiguous, and E waits for no software call, so nothing holds the interrupt (R187). -/
theorem enabled_interrupt_of_idle {s : State} (hi : s.inited = true) (hp : s.pPhase = .idle) (b : Byte) :
    enabled s (.interrupt b) = true := by
  simp [enabled, guardHolds, waitsForStore, State.isrHolds, waitsForCall, itemAgent, normalContext, hi, hp]

/-- P waits neither for a STORE in progress nor for a software call, so only its guard holds it. -/
theorem enabled_of_producer {s : State} {it : Item} (h : itemAgent s it = .producer) : enabled s it = guardHolds s it := by
  simp [enabled, waitsForStore, waitsForCall, h, normalContext]

/-- The interrupt keeps its place while an item of P behind it runs. -/
theorem step_behind_interrupt {s : State} {b : Byte} {it : Item} {rest : List Item} (hbare : s.bareSend = false)
    (hp : s.pPhase ≠ .idle) (hP : itemAgent s it = .producer) (hguard : guardHolds s it = true)
    (hsched : s.sched = .interrupt b :: it :: rest) :
    step s = runItem it { s with sched := .interrupt b :: rest } := by
  have henv : itemAgent s (.interrupt b) = .environment := rfl
  have hpick : pick s [] s.sched = some (it, .interrupt b :: rest) := by
    simp [hsched, pick, enabled_interrupt_of_busy hp, (enabled_of_producer hP).trans hguard, hP, henv]
  exact step_of_nextTurn_some (by simp [nextTurn, hbare, hpick])

/-- With P idle the waiting interrupt is P's STORE.1 (R187). -/
theorem step_interrupt {s : State} {b : Byte} {rest : List Item} (hi : s.inited = true) (hbare : s.bareSend = false)
    (hp : s.pPhase = .idle) (hsched : s.sched = .interrupt b :: rest) :
    step s = .next (store1 b { s with sched := rest }) :=
  step_first hbare hsched (enabled_interrupt_of_idle hi hp b)

theorem step_store2_behind_interrupt {s : State} {b c : Byte} {rest : List Item} (hbare : s.bareSend = false)
    (hp : s.pPhase = .write c) (hhead : s.head < s.cfg.n) (hsched : s.sched = .interrupt b :: .store2 :: rest) :
    step s = .next { s with
      storage := s.storage.write s.head c, pPhase := .publish, sched := .interrupt b :: rest } := by
  rw [step_behind_interrupt hbare (by simp [hp]) rfl (by simp [guardHolds, store2Ready, hp]) hsched]
  exact store2_of_write (s := { s with sched := .interrupt b :: rest }) hp hhead

theorem step_store3_behind_interrupt {s : State} {b : Byte} {rest : List Item} (hbare : s.bareSend = false)
    (hp : s.pPhase = .publish) (hsched : s.sched = .interrupt b :: .store3 :: rest) :
    step s = .next { s with head := inc s.cfg.n s.head, pPhase := .idle, sched := .interrupt b :: rest } := by
  rw [step_behind_interrupt hbare (by simp [hp]) rfl (by simp [guardHolds, hp]) hsched]
  exact store3_of_publish (s := { s with sched := .interrupt b :: rest }) hp

/-- Settles O7: P's steps pass the held interrupt (`step_behind_interrupt`), and once P is idle the interrupt runs
(`step_interrupt`). -/
theorem heldInterruptWaits : Obligations.HeldInterruptWaits := by
  refine fun s b rest hi hbare => ⟨fun hp hsched => ?_, fun c hp hhead hsched => ?_⟩
  · exact ⟨_, step_store3_behind_interrupt hbare hp hsched, rfl, step_interrupt hi hbare rfl rfl⟩
  · exact ⟨_, _, step_store2_behind_interrupt hbare hp hhead hsched, rfl,
      step_store3_behind_interrupt hbare rfl rfl, rfl, step_interrupt hi hbare rfl rfl⟩

/-! ### An operation on a busy port (R182, R184, R191) -/

theorem storeRefusal_of_busy (b : Byte) {s : State} (hi : s.inited = true) (hp : s.pPhase ≠ .idle) :
    storeRefusal b s = some (.portBusy .wr) := by simp [storeRefusal, hi, hp]

theorem execStore_of_refused {b : Byte} {s : State} {c : RefusalCause} (hr : storeRefusal b s = some c) :
    execStore b s = .next (s.refuse c) := by
  rw [execStore_of_not_accepted (by simp [storeAccepted, hr])]
  simp [store1, hr]

theorem execAvail_of_busy {s : State} (hc : s.cPhase ≠ .idle) : execAvail s = .next (s.refuse (.portBusy .rd)) := by
  simp [execAvail, hc]

/-- A TAKE that is refused ends with its TAKE.1. -/
theorem execTake_of_busy {s : State} (hc : s.cPhase ≠ .idle) : execTake s = .next (s.refuse (.portBusy .rd)) := by
  have hacc : takeAccepted s = false := by simp [takeAccepted, hc]
  simp [execTake, hacc, take1_of_busy hc]

/-- Settles O28: on a busy port each operation ends with its refusal, which names the port. -/
theorem busyPortRefused : Obligations.BusyPortRefused := by
  intro s b
  simp only [← State.refuse_eq]
  exact ⟨fun hi hp => execStore_of_refused (storeRefusal_of_busy b hi hp), execAvail_of_busy, execTake_of_busy,
    fun hi ht => execSend_of_refused (sendRefusal_of_busy b hi ht)⟩

end Sys2Proof.Machine
end

section
/-! PROOFS. Before `init`: no interrupt, no STORE and no SEND, and nothing to take (O13). -/

namespace Sys2Proof.Machine

/-! ### What needs `init` (R187, R191, R215) -/

theorem enabled_interrupt_of_notInited {s : State} (hi : s.inited = false) (b : Byte) :
    enabled s (.interrupt b) = false := by simp [enabled, guardHolds, hi]

/-- `init` is tested first, so P's phase does not matter (R191). -/
theorem storeRefusal_of_notInited (b : Byte) {s : State} (hi : s.inited = false) :
    storeRefusal b s = some (.notInited (.store b)) := by simp [storeRefusal, hi]

/-- `init` is tested first, so T's phase does not matter (R191). -/
theorem sendRefusal_of_notInited (b : Byte) {s : State} (hi : s.inited = false) :
    sendRefusal b s = some (.notInited (.send b)) := by simp [sendRefusal, hi]

/-! ### What the invariant of the block says before `init` (R215) -/

theorem State.blockInv.head_eq_tail_of_notInited {s : State} (h : s.blockInv) (hi : s.inited = false) :
    s.head = s.tail := by
  obtain ⟨-, -, -, -, -, -, -, -, hempty⟩ := h
  exact hempty hi

/-- What C sees as not empty is not empty, with XD_LAG = 1 too (R73). -/
theorem State.blockInv.rdAvail_of_notInited {s : State} (h : s.blockInv) (hi : s.inited = false) :
    s.rdAvail = false :=
  Bool.eq_false_iff.mpr fun ha => h.head_ne_tail ha (h.head_eq_tail_of_notInited hi)

/-- Where C sees an empty buffer no TAKE is in progress. -/
theorem State.blockInv.cPhase_idle {s : State} (h : s.blockInv) (ha : s.rdAvail = false) : s.cPhase = .idle := by
  cases hc : s.cPhase with
  | idle => rfl
  | adv v => cases ha.symm.trans (h.rdAvail_of_adv hc)

/-- Settles O13: `init` is what the interrupt's guard and both refusals test first; and before it C is idle and sees an
empty buffer, so AVAIL answers and TAKE faults as they do there. -/
theorem beforeInit : Obligations.BeforeInit := by
  intro s hi
  simp only [← State.refuse_eq, ← State.raiseFault_eq]
  refine ⟨fun b => ⟨enabled_interrupt_of_notInited hi b, ?_, ?_⟩, fun ⟨h, _⟩ => ?_⟩
  · exact execStore_of_refused (storeRefusal_of_notInited b hi)
  · exact execSend_of_refused (sendRefusal_of_notInited b hi)
  · have ha := h.rdAvail_of_notInited hi
    have hc := h.cPhase_idle ha
    exact ⟨execAvail_of_idle ha hc, execTake_of_empty hc ha⟩

end Sys2Proof.Machine
end
